-- ==== Sys2Proof/Word.lean ====
section
/-! DEFINITION. Bytes and byte sequences of a fixed length (00_scope.md R13). Element 0 is the first byte on the wire, or the
lowest image address. -/

namespace Sys2Proof

/-- A byte; bit 0 is its least significant bit (R13). -/
abbrev Byte := BitVec 8

/-- A sequence of exactly `n` bytes: the list and the proof of its length. -/
abbrev Bytes (n : Nat) := { l : List Byte // l.length = n }

end Sys2Proof
end

