-- ==== Sys2Proof/Config.lean ====
section
/-! DEFINITION. What one implementation of the block fixes (00_scope.md R12), and the free values. The device parameters MAGIC, ACK and CAPACITY are
no part of this file: the host writes them into registers (R7, R8, R9). -/

namespace Sys2Proof

/-- The two parameters the spec leaves OPEN for the model to take as arguments (R12). They stand in State, which no step changes them
in, so a statement about every state holds for every value of both, and free at reset, so that one about a run from reset does too
(log 2). -/
structure Params where
  /-- ACK_MAX: the largest ACK_LEN the block holds (R8, D10). -/
  ackMax : Nat
  /-- TIMEOUT_CLEARS_FRAME: whether a zero-byte framing read throws away the bytes gathered so far (R124, D14). -/
  timeoutClearsFrame : Bool
  deriving DecidableEq, Repr

/-- ACK_MAX of this machine, less one: OPEN, a natural number that is at least 1 (R12, D10). No value is chosen (log 2). -/
opaque Config.ackMaxLessOne : Nat

/-- TIMEOUT_CLEARS_FRAME of this machine: OPEN (R12, D14). No value is chosen (log 2). -/
opaque Config.timeoutClearsFrame : Bool

/-- The parameters of `State.reset`, and so of every run from it: both free (R12; log 2). -/
def Config.resetParams : Params :=
  { ackMax := Config.ackMaxLessOne + 1, timeoutClearsFrame := Config.timeoutClearsFrame }

/-- The registers that the flows read. -/
inductive FlowRegister where
  | cfgCapacity
  | cfgMagic
  | cfgAck
  | sendIndex
  | cursor
  | txbuf
  | rxbuf
  | rxCount
  deriving DecidableEq, Repr

/-- FREE VALUE (log 10): the number a flow's step computes with where it reads a register that holds no value. The spec gives the
step an effect and this number nowhere (10_state.md R39: "a model must not invent a value for it"), so nothing constrains it. -/
opaque Config.unheldNumber : FlowRegister → Nat

/-- FREE VALUE (log 10): the same for byte `i` of a byte register. -/
opaque Config.unheldByte : FlowRegister → Nat → Byte

end Sys2Proof
end

