-- ==== Sys2Proof/Syntax.lean ====
section
/-! DEFINITION. The instructions of spec/opcode_table.json, one constructor a row, and the four shapes in which they reach the
block (30_encoding.md). -/

namespace Sys2Proof

/-- A value at the host port: a number, or a byte sequence given byte 0 first (30_encoding.md R80, R81). -/
inductive HostValue where
  | num (n : Nat)
  | bytes (bs : List Byte)
  deriving DecidableEq, Repr

/-- What a host access names: a register by its 8-bit number (R80), or one byte of IMAGE by its index (R141). -/
inductive HostTarget where
  | reg (n : BitVec 8)
  | image (index : Nat)
  deriving DecidableEq, Repr

/-- One host access as the host makes it (R141). -/
inductive HostAccess where
  | write (target : HostTarget) (value : HostValue)
  | read (target : HostTarget)
  deriving DecidableEq, Repr

/-- An instruction as it stands before decoding: 42 bytes of a wire frame (R67), the bytes of an acknowledgement (R74), or a host
access (R77, R80). Which of the three it is follows from where it stands, not from its bits. -/
inductive Encoded where
  | frame (bytes : List Byte)
  | ack (bytes : List Byte)
  | host (access : HostAccess)
  deriving DecidableEq, Repr

/-- The rows of spec/opcode_table.json. -/
inductive Instr where
  /-- FRAME_WRITE (R67, R76, R133): a wire frame whose byte 8 is 0x57. The fields are the frame's own bytes. -/
  | frameWrite (magic offsetHex : Bytes 4) (dataHex : Bytes 32) (term : Byte)
  /-- FRAME_OTHER (R76, R79): a wire frame with any other byte 8, `action`. -/
  | frameOther (magic offsetHex : Bytes 4) (action : Byte) (dataHex : Bytes 32) (term : Byte)
  /-- ACK_FRAME (R74): the bytes of an acknowledgement, sent or read. -/
  | ackFrame (bytes : List Byte)
  /-- CMD_ENCODE, code 0x01 (R77, R144). -/
  | cmdEncode
  /-- CMD_DECODE, code 0x02 (R77, R145). -/
  | cmdDecode
  /-- CMD_VALIDATE, code 0x03 (R77, R146). -/
  | cmdValidate
  /-- CMD_START_SEND, code 0x10 (R77, R147). -/
  | cmdStartSend
  /-- CMD_START_RECV, code 0x11 (R77, R148). -/
  | cmdStartRecv
  /-- CMD_RESERVED (R78): any other command code. -/
  | cmdReserved (code : Byte)
  /-- WR (R80, R141): a host write. -/
  | wr (target : HostTarget) (value : HostValue)
  /-- RD (R141): a host read. -/
  | rd (target : HostTarget)
  deriving DecidableEq, Repr

end Sys2Proof
end

