-- ==== Sys2Proof/Machine/State.lean ====
section
/-! DEFINITION. Everything the block holds (10_state.md), what the outside world does to it, and why a step can stop. -/

namespace Sys2Proof.Machine

/-- The values of STATE (10_state.md R22), which plays the part of a program counter. Codes 0xA to 0xE are never held. -/
inductive FlowState where
  | idle
  | txFetch
  | txWrite
  | txEcho
  | txAck
  | rxFrame
  | rxAckWrite
  | rxAckEcho
  | doneOk
  | doneFail
  | fatal
  deriving DecidableEq, Repr

/-- The values of STATUS.FATAL_CAUSE (60_exceptions.md R161). -/
inductive FatalCause where
  | noCause
  | encodeRange
  | selfcheckDecode
  | selfcheckInvalid
  | writeShort
  | writeError
  | echoShort
  | echoError
  | echoMismatch
  | rxReadError
  | ackReadError
  deriving DecidableEq, Repr

/-- The event codes (60_exceptions.md R158); no other code is ever emitted. -/
inductive EventCode where
  | rxIdle
  | rxShortFrame
  | rxDecodeFail
  | rxValidate
  | rxGap
  | rxRewind
  | txAckMismatch
  deriving DecidableEq, Repr

/-- One record of the event stream (10_state.md R43). -/
structure Event where
  code : EventCode
  a : BitVec 16
  b : BitVec 16
  deriving DecidableEq, Repr

/-- The timeout classes of a transport access (00_scope.md R11); a class only names the access. -/
inductive TimeoutClass where
  | write
  | echo
  | ack
  | rx
  deriving DecidableEq, Repr

/-- The transport's answer to `TxWrite` (00_scope.md R14). -/
inductive TxAnswer where
  | written (n : Nat)
  | error
  deriving DecidableEq, Repr

/-- The transport's answer to `RxRead` (00_scope.md R14, R15). -/
inductive RxAnswer where
  | data (bs : List Byte)
  | timeout
  | error
  deriving DecidableEq, Repr

/-- The source's answer to `SrcRead` (00_scope.md R14, 10_state.md R45): only whole blocks. -/
inductive SrcAnswer where
  | block (d : Bytes 16)
  | eof
  | error
  deriving DecidableEq, Repr

/-- One thing the outside world does: a host access (R141), a reset (R176), or the answer to a port access (R14). -/
inductive Stimulus where
  | host (access : HostAccess)
  | reset
  | tx (answer : TxAnswer)
  | rx (answer : RxAnswer)
  | src (answer : SrcAnswer)
  deriving DecidableEq, Repr

/-- One access the block made at a port, with its answer. -/
inductive PortAccess where
  | txWrite (bytes : List Byte) (cls : TimeoutClass) (answer : TxAnswer)
  | rxRead (max : Nat) (cls : TimeoutClass) (answer : RxAnswer)
  | srcRead (answer : SrcAnswer)
  deriving DecidableEq, Repr

/-- What one host read returned (R141). -/
structure HostReply where
  target : HostTarget
  value : HostValue
  deriving DecidableEq, Repr

/-- IMAGE (20_memory.md R50): its extent in bytes, none until the first CMD_START_RECV, and its cells in canonical form: addresses
strictly rising, no cell holding 0x00, which is what an unlisted byte of the extent reads as (R53, R148). -/
structure Image where
  extent : Option (BitVec 17)
  cells : List Host.Cell
  deriving DecidableEq, Repr

/-- RXBUF's 42 bytes, each holding a value or none (10_state.md R38, R39). -/
abbrev RxBuffer := { l : List (Option Byte) // l.length = 42 }

/-- The machine. A register whose value after reset the spec gives as "no value" is an `Option`: holding nothing is that register's
own state, which reads and commands test (10_state.md R39, R47; the registers by name: log 1). -/
structure State where
  /-- STATE (R22). -/
  flow : FlowState
  /-- STATUS.FATAL_STATE (R26). -/
  fatalState : FlowState
  /-- STATUS.FATAL_CAUSE (R26). -/
  fatalCause : FatalCause
  /-- CFG_CAPACITY, 0x02 (R27). -/
  cfgCapacity : Option (BitVec 17)
  /-- CFG_MAGIC, 0x03 (R28). -/
  cfgMagic : Option (Bytes 4)
  /-- CFG_ACK_LEN, 0x04 (R29). -/
  cfgAckLen : Option (BitVec 16)
  /-- CFG_ACK, 0x05 (R29). -/
  cfgAck : Option (List Byte)
  /-- PKT_MAGIC, 0x08 (R33). -/
  pktMagic : Option (Bytes 4)
  /-- PKT_OFFSET, 0x09 (R33). -/
  pktOffset : Option (BitVec 16)
  /-- PKT_ACTION, 0x0A (R33). -/
  pktAction : Option Byte
  /-- PKT_DATA, 0x0B (R33). -/
  pktData : Option (Bytes 16)
  /-- PKT_BLOCK, 0x0C (R33). -/
  pktBlock : Option (BitVec 16)
  /-- DEC_STATUS, 0x0D (R31). -/
  decStatus : Option (BitVec 8)
  /-- VAL_FLAGS, 0x0E (R32). -/
  valFlags : Option (BitVec 8)
  /-- FRAME, 0x0F (R34). -/
  frame : Option (Bytes 42)
  /-- SEND_INDEX, 0x10 (R35). -/
  sendIndex : Option (BitVec 16)
  /-- CURSOR, 0x11 (R36). -/
  cursor : Option (BitVec 16)
  /-- TXBUF (R37). -/
  txbuf : Option (Bytes 42)
  /-- RXBUF (R38). -/
  rxbuf : RxBuffer
  /-- RX_COUNT (R38). -/
  rxCount : Option (BitVec 6)
  /-- IMAGE (R42). -/
  image : Image
  /-- The event stream, oldest first (R43). -/
  events : List Event
  /-- The model's own: the OPEN parameters (R12; log 2). -/
  params : Params
  /-- The model's own: what the outside world does next, oldest first (log 3). -/
  inbox : List Stimulus
  /-- The model's own: the port accesses made so far, oldest first (log 4). -/
  portLog : List PortAccess
  /-- The model's own: what host reads have returned so far, oldest first (log 4). -/
  readLog : List HostReply
  deriving DecidableEq, Repr

/-- The block right after power-on, which the spec treats as reset (R47, R176, R178); nothing is in the inbox, and the outputs are
empty (95_test_vectors.md Part 3). -/
def State.reset : State where
  flow := .idle
  fatalState := .idle
  fatalCause := .noCause
  cfgCapacity := none
  cfgMagic := none
  cfgAckLen := none
  cfgAck := none
  pktMagic := none
  pktOffset := none
  pktAction := none
  pktData := none
  pktBlock := none
  decStatus := none
  valFlags := none
  frame := none
  sendIndex := none
  cursor := none
  txbuf := none
  rxbuf := ⟨List.replicate 42 none, List.length_replicate ..⟩
  rxCount := none
  image := { extent := none, cells := [] }
  events := []
  params := Config.resetParams
  inbox := []
  portLog := []
  readLog := []

/-- Why the machine stops with a fault: never. Every fatal condition of the spec is a next state, FATAL (60_exceptions.md R160),
and where it gives an access or a command no meaning it says "refused" (93_implementation_defined.md), so there is no fault to name
and nobody raises one. -/
inductive Fault where
  deriving DecidableEq, Repr

/-- Why an access, a command or an instruction has no meaning where it stands. Every one is safe: the model stops where the spec
says "refused", or where it gives no effect. -/
inductive Refusal where
  /-- Raised by `exec` for an instruction with no meaning yet; no arm does. -/
  | notModelled (mnemonic : String)
  /-- Raised by a host access to register 0x06, 0x07 or 0x12 to 0xFF (R24, R142). -/
  | reservedRegister
  /-- Raised by a host read of CMD (R25, R142). -/
  | writeOnlyRegister
  /-- Raised by a host write of STATUS, CFG_ACK_LEN, DEC_STATUS, VAL_FLAGS, SEND_INDEX or CURSOR (R142). -/
  | readOnlyRegister
  /-- Raised by a host write whose value the register's width or its rule does not admit (R27, R29, R34, R142). -/
  | illegalValue
  /-- Raised by a host write of CFG_CAPACITY, CFG_MAGIC or CFG_ACK while busy (R30, R142). -/
  | configWhileBusy
  /-- Raised by a host read of a register that holds no value, and by a command whose pseudocode reads one (R39, R142, R144-R149,
  92_eei_decisions.md D8: "A read of it is refused, and so is a command that reads it"). No step of a flow raises it. -/
  | noValue
  /-- Raised by a host read of IMAGE while the receive flow is busy (R54, R142). -/
  | imageWhileReceiving
  /-- Raised by a host read of an IMAGE byte beyond the extent, or with no extent (R50, R142). -/
  | imageByteAbsent
  /-- Raised by any host write of IMAGE (R54, R142). -/
  | imageReadOnly
  /-- Raised by a write of a reserved code to CMD (R78, R149). -/
  | reservedCommand
  /-- Raised by a command while busy (R143, R149). -/
  | commandWhileBusy
  /-- Raised by a command in FATAL (R143, R149, R163). -/
  | commandInFatal
  /-- Raised by an environment answer that the access's signature does not allow, or that answers no access (R14, R23). -/
  | answerOutsideSignature
  /-- Raised by a frame run in a state that neither reads nor sends one (R106, R121). -/
  | frameNotExpected
  /-- Raised by an acknowledgement run in a state that neither reads nor sends one (R106, R108). -/
  | ackNotExpected
  /-- Raised by a MemWrite that breaks its `requires` (R51); no rule makes such a call. -/
  | imageWriteOutside
  /-- Raised by the step when the bytes it would run are no instruction: CFG_ACK holding an empty sequence (R8), which no write
  puts there (R29). -/
  | undecodable
  deriving DecidableEq, Repr

end Sys2Proof.Machine
end

