-- ==== Sys2Proof/Machine/Ops.lean ====
section
/-! DEFINITION. The named operations over the state: the fatal entry and reset, events, the three port accesses, the echo-cancelling
adapter, and the image. -/

namespace Sys2Proof.Machine

/-- What an instruction or a step answers. -/
abbrev Out := Host.Outcome State Fault Refusal

/-- The fatal entry, `raise Fatal(cause)` (60_exceptions.md R160). -/
def raiseFatal (cause : FatalCause) (s : State) : State :=
  { s with fatalState := s.flow, fatalCause := cause, flow := .fatal }

/-- Reset, the only way out of FATAL (70_reset_and_hazards.md R163, R176; values of 10_state.md R47). The event stream and the
model's own fields are not state that reset takes back (R43, R177; log 2, 3, 4). Where inside a step it may land: log 14. -/
def resetBlock (s : State) : State :=
  { State.reset with
    events := s.events, params := s.params, inbox := s.inbox, portLog := s.portLog, readLog := s.readLog }

/-- `emit Event(code, a, b)` (60_exceptions.md R158). -/
def emit (code : EventCode) (a b : BitVec 16) (s : State) : State :=
  { s with events := s.events ++ [{ code := code, a := a, b := b }] }

/-- Go on with a register's value; a host read of a register that holds none is refused, and so is a command whose pseudocode reads
one (10_state.md R39, 44_host_commands.md R142, R149, 92_eei_decisions.md D8). -/
def withOperand {α : Type} (o : Option α) (k : α → Out) : Out :=
  match o with
  | some a => k a
  | none => .refused .noValue

/-! The flows read their registers directly (10_state.md R30). In every state a run reaches these hold a value (R147, R148); where one
holds none the step runs all the same, with a free value inside the register's own range (log 10). -/

/-- `n` free bytes. -/
def unheldBytes (r : FlowRegister) (n : Nat) : Bytes n := ⟨(List.range n).map (Config.unheldByte r), by simp⟩

/-- CFG_CAPACITY as a flow reads it; the free one is a legal capacity (R27). -/
def flowCapacity (s : State) : BitVec 17 :=
  s.cfgCapacity.getD (BitVec.ofNat 17 (16 * (Config.unheldNumber .cfgCapacity % 0x1000 + 1)))

/-- CFG_MAGIC as a flow reads it (R28). -/
def flowMagic (s : State) : Bytes 4 := s.cfgMagic.getD (unheldBytes .cfgMagic 4)

/-- CFG_ACK as a flow reads it; the free one has a legal length (R29). -/
def flowAck (s : State) : List Byte :=
  s.cfgAck.getD (unheldBytes .cfgAck (Config.unheldNumber .cfgAck % min s.params.ackMax 0xFFFF + 1)).val

/-- CFG_ACK_LEN as a flow reads it: CFG_ACK's length (R29). -/
def flowAckLen (s : State) : BitVec 16 := s.cfgAckLen.getD (BitVec.ofNat 16 (flowAck s).length)

/-- SEND_INDEX as a flow reads it; the free one lies in 0 to 0x1000 (R35). -/
def flowIndex (s : State) : BitVec 16 := s.sendIndex.getD (BitVec.ofNat 16 (Config.unheldNumber .sendIndex % 0x1001))

/-- CURSOR as a flow reads it; the free one lies in 0 to 0x1000 (R36). -/
def flowCursor (s : State) : BitVec 16 := s.cursor.getD (BitVec.ofNat 16 (Config.unheldNumber .cursor % 0x1001))

/-- TXBUF as a flow reads it (R37). -/
def flowTxbuf (s : State) : Bytes 42 := s.txbuf.getD (unheldBytes .txbuf 42)

/-- RX_COUNT as a flow reads it; the free one lies in 0 to 42 (R38). -/
def flowCount (s : State) : BitVec 6 := s.rxCount.getD (BitVec.ofNat 6 (Config.unheldNumber .rxCount % 43))

/-- RXBUF's 42 bytes as a flow reads them (R38). -/
def flowRxbuf (s : State) : Bytes 42 :=
  ⟨s.rxbuf.val.mapIdx fun i b => b.getD (Config.unheldByte .rxbuf i), by rw [List.length_mapIdx, s.rxbuf.property]⟩

/-- What came of asking a port: the environment's answer and the state after the access; no answer yet, which is a wait inside the
step (60_exceptions.md R175); or an answer the access does not allow (00_scope.md R14). -/
inductive Asked (α : Type) where
  | answered (answer : α) (s : State)
  | waiting
  | outside

/-- The answers `TxWrite(bytes, cls)` admits (R14): Written(0) is one (R102). -/
def txAdmits (len : Nat) : TxAnswer → Bool
  | .written n => n ≤ len
  | .error => true

/-- The answers `RxRead(max, cls)` admits (R14). -/
def rxAdmits (max : Nat) : RxAnswer → Bool
  | .data bs => 1 ≤ bs.length && bs.length ≤ max
  | .timeout => true
  | .error => true

/-- `TxWrite(bytes, cls)` (R14). -/
def txWrite (bytes : List Byte) (cls : TimeoutClass) (s : State) : Asked TxAnswer :=
  match s.inbox with
  | .tx a :: rest =>
    if txAdmits bytes.length a then
      .answered a { s with inbox := rest, portLog := s.portLog ++ [.txWrite bytes cls a] }
    else .outside
  | .rx _ :: _ => .outside
  | .src _ :: _ => .outside
  | .host _ :: _ => .waiting
  | .reset :: _ => .waiting
  | [] => .waiting

/-- `RxRead(max, cls)` (R14). -/
def rxRead (max : Nat) (cls : TimeoutClass) (s : State) : Asked RxAnswer :=
  match s.inbox with
  | .rx a :: rest =>
    if rxAdmits max a then
      .answered a { s with inbox := rest, portLog := s.portLog ++ [.rxRead max cls a] }
    else .outside
  | .tx _ :: _ => .outside
  | .src _ :: _ => .outside
  | .host _ :: _ => .waiting
  | .reset :: _ => .waiting
  | [] => .waiting

/-- `SrcRead()` (R14). -/
def srcRead (s : State) : Asked SrcAnswer :=
  match s.inbox with
  | .src a :: rest => .answered a { s with inbox := rest, portLog := s.portLog ++ [.srcRead a] }
  | .tx _ :: _ => .outside
  | .rx _ :: _ => .outside
  | .host _ :: _ => .waiting
  | .reset :: _ => .waiting
  | [] => .waiting

/-- The adapter's write phase (41_echo_adapter.md R102): the whole sequence or a fatal condition. -/
def adapterWrite (bytes : List Byte) (after : FlowState) (s : State) : Out :=
  match txWrite bytes .write s with
  | .waiting => .next s
  | .outside => .refused .answerOutsideSignature
  | .answered (.written n) t =>
    if n = bytes.length then .next { t with flow := after } else .next (raiseFatal .writeShort t)
  | .answered .error t => .next (raiseFatal .writeError t)

/-- The adapter's echo phase (41_echo_adapter.md R103): one read, the length checked before the contents (D16); `onOk` is what the
caller does after the outcome OK. -/
def adapterEcho (bytes : List Byte) (onOk : State → Out) (s : State) : Out :=
  match rxRead bytes.length .echo s with
  | .waiting => .next s
  | .outside => .refused .answerOutsideSignature
  | .answered .error t => .next (raiseFatal .echoError t)
  | .answered .timeout t => .next (raiseFatal .echoShort t)
  | .answered (.data bs) t =>
    if bs.length < bytes.length then .next (raiseFatal .echoShort t)
    else if bs = bytes then onOk t
    else .next (raiseFatal .echoMismatch t)

/-- The byte a list of cells holds at an address; an unlisted one is 0x00 (20_memory.md R53). -/
def cellsRead (a : Nat) : List Host.Cell → Byte
  | [] => 0x00#8
  | (b, w) :: rest => if a = b then w else cellsRead a rest

/-- Write one byte, keeping the canonical form: 0x00 removes the cell. -/
def cellsWrite (a : Nat) (v : Byte) : List Host.Cell → List Host.Cell
  | [] => if v = 0x00#8 then [] else [(a, v)]
  | (b, w) :: rest =>
    if a < b then (if v = 0x00#8 then (b, w) :: rest else (a, v) :: (b, w) :: rest)
    else if a = b then (if v = 0x00#8 then rest else (a, v) :: rest)
    else (b, w) :: cellsWrite a v rest

/-- Write bytes at rising addresses from `a`. -/
def cellsWriteBytes (a : Nat) : List Byte → List Host.Cell → List Host.Cell
  | [], cells => cells
  | v :: vs, cells => cellsWriteBytes (a + 1) vs (cellsWrite a v cells)

/-- The canonical form of cells at addresses from `lo` up to a bound: strictly rising, none holding 0x00. -/
def cellsWf (bound : Nat) : Nat → List Host.Cell → Bool
  | _, [] => true
  | lo, (a, v) :: rest => lo ≤ a && a < bound && v != 0x00#8 && cellsWf bound (a + 1) rest

/-- The canonical form of IMAGE: no cell outside the extent, and none at all before the first CMD_START_RECV (20_memory.md R50). -/
def Image.wf (m : Image) : Bool :=
  match m.extent with
  | none => m.cells.isEmpty
  | some e => cellsWf e.toNat 0 m.cells

/-- One byte of IMAGE: none outside the extent, or when no byte holds a value (20_memory.md R50). -/
def imageByte (a : Nat) (m : Image) : Option Byte :=
  match m.extent with
  | none => none
  | some e => if a < e.toNat then some (cellsRead a m.cells) else none

/-- `zeros(capacity)`: the image CMD_START_RECV makes (44_host_commands.md R148). -/
def zeroImage (capacity : BitVec 17) : Image := { extent := some capacity, cells := [] }

/-- `MemWrite(addr, len v, v)` (20_memory.md R51), none where its `requires` does not hold. -/
def memWrite (addr : Nat) (v : List Byte) (m : Image) : Option Image :=
  match m.extent with
  | none => none
  | some e => if addr + v.length ≤ e.toNat then some { m with cells := cellsWriteBytes addr v m.cells } else none

/-- `MemRead(addr, n)` (20_memory.md R51), none where its `requires` does not hold. `MemRead(0, CAPACITY)` is the persisted
artifact of R55. -/
def memRead (addr : Nat) : Nat → Image → Option (List Byte)
  | 0, m =>
    match m.extent with
    | none => none
    | some e => if addr ≤ e.toNat then some [] else none
  | n + 1, m =>
    match imageByte addr m, memRead (addr + 1) n m with
    | some v, some vs => some (v :: vs)
    | _, _ => none

end Sys2Proof.Machine
end

