-- ==== Sys2Proof/Machine/Ack.lean ====
section
/-! DEFINITION. ACK_FRAME: "sent by whichever side just received a write, read by whichever side just sent one"
(30_encoding.md R74). -/

namespace Sys2Proof.Machine

/-- The end of TX_ACK after the bytes `bs` were read, none of them on a timeout (42_send_flow.md R115, R116, R119): a mismatch is a
warning, there is no retry (R117), and the index advances either way. -/
def ackReceived (bs : List Byte) (s : State) : Out :=
  let t := if bs = flowAck s then s else emit .txAckMismatch (BitVec.ofNat 16 bs.length) (flowIndex s) s
  .next { t with sendIndex := some (flowIndex s + 1#16), flow := .txFetch }

/-- Step 7 of the receive flow (43_receive_flow.md R138), on unbounded naturals. -/
def receiveEnd (s : State) : Out :=
  .next { s with flow := if (flowCapacity s).toNat ≤ (flowCursor s).toNat * 16 then .doneOk else .rxFrame }

/-- ACK_FRAME where it stands: read in TX_ACK, sent in RX_ACK_WRITE (R136), echoed in RX_ACK_ECHO (R137). -/
def execAckFrame (bytes : List Byte) (s : State) : Out :=
  match s.flow with
  | .txAck => ackReceived bytes s
  | .rxAckWrite => adapterWrite bytes .rxAckEcho s
  | .rxAckEcho => adapterEcho bytes receiveEnd s
  | .idle => .refused .ackNotExpected
  | .txFetch => .refused .ackNotExpected
  | .txWrite => .refused .ackNotExpected
  | .txEcho => .refused .ackNotExpected
  | .rxFrame => .refused .ackNotExpected
  | .doneOk => .refused .ackNotExpected
  | .doneFail => .refused .ackNotExpected
  | .fatal => .refused .ackNotExpected

end Sys2Proof.Machine
end

