-- ==== Sys2Proof/WellFormed.lean ====
section
/-! DEFINITION. Which terms of `Instr` are instructions of the table: the checks the spec's encodings put on the fields
themselves, whatever the state (30_encoding.md R67, R70, R72, R73, R74, R78; 10_state.md R24, R27, R29, R34). A term that fails
one still has its outcome in the machine: a frame with a bad digit is discarded, a bad access is refused. -/

namespace Sys2Proof

/-- One of the sixteen digits '0'-'9', 'A'-'F' (R73). -/
def isHexDigit (c : Byte) : Bool := (0x30#8 ≤ c && c ≤ 0x39#8) || (0x41#8 ≤ c && c ≤ 0x46#8)

/-- The codes R77 gives a command. -/
def isCommandCode (c : Byte) : Bool := [0x01#8, 0x02#8, 0x03#8, 0x10#8, 0x11#8].contains c

/-- A value the register's width and its own rule admit, for the registers a host may write other than CMD (R24, R27, R29, R34).
ACK_MAX is a parameter of the state and is checked there. -/
def fitsRegister (n : BitVec 8) (v : HostValue) : Bool :=
  match v with
  | .num k =>
    (n == 0x02#8 && k % 16 == 0 && 16 ≤ k && k ≤ 0x10000)
    || ((n == 0x09#8 || n == 0x0C#8) && k < 0x10000)
    || (n == 0x0A#8 && k < 0x100)
  | .bytes bs =>
    ((n == 0x03#8 || n == 0x08#8) && bs.length == 4)
    || (n == 0x05#8 && 1 ≤ bs.length && bs.length < 0x10000)
    || (n == 0x0A#8 && bs.length == 1)
    || (n == 0x0B#8 && bs.length == 16)
    || (n == 0x0F#8 && bs.length == 42)

/-- The registers a host may read: every named one but CMD (R24, R25). -/
def readableNumber (n : BitVec 8) : Bool :=
  (0x01#8 ≤ n && n ≤ 0x05#8) || (0x08#8 ≤ n && n ≤ 0x11#8)

/-- The checks on one instruction's fields. -/
def Instr.wf : Instr → Bool
  | .frameWrite _ offsetHex dataHex term =>
    offsetHex.val.all isHexDigit && dataHex.val.all isHexDigit && term == 0x0D#8
  | .frameOther _ offsetHex action dataHex term =>
    offsetHex.val.all isHexDigit && dataHex.val.all isHexDigit && term == 0x0D#8 && action != 0x57#8
  | .ackFrame bytes => 1 ≤ bytes.length && bytes.length < 0x10000
  | .cmdEncode => true
  | .cmdDecode => true
  | .cmdValidate => true
  | .cmdStartSend => true
  | .cmdStartRecv => true
  | .cmdReserved code => !isCommandCode code
  | .wr (.reg n) value => fitsRegister n value
  | .wr (.image _) _ => false
  | .rd (.reg n) => readableNumber n
  | .rd (.image index) => index < 0x10000

end Sys2Proof
end

