-- ==== Sys2Proof/Decode.lean ====
section
/-! DEFINITION. From the bytes or the host access to an instruction, and back (30_encoding.md). The decoder is total: what no
instruction is spelled by, it rejects by name. -/

namespace Sys2Proof

/-- Why the bytes are no instruction. -/
inductive DecodeError where
  /-- A wire frame is exactly 42 bytes (R67, R75). -/
  | frameLength
  /-- An acknowledgement is a non-empty sequence (R8). -/
  | ackEmpty
  deriving DecidableEq, Repr

/-- `b[i .. i+k-1]` (R13). -/
def sliceBytes {n : Nat} (b : Bytes n) (i k : Nat) (h : i + k ≤ n) : Bytes k :=
  ⟨(b.val.drop i).take k, by rw [List.length_take, List.length_drop, b.property]; omega⟩

/-- `b[i]` (R13). -/
def byteAt {n : Nat} (b : Bytes n) (i : Nat) (h : i < n) : Byte :=
  b.val[i]'(by rw [b.property]; exact h)

/-- `zeros(n)` (R13). -/
def zeroBytes (n : Nat) : Bytes n := ⟨List.replicate n 0x00#8, List.length_replicate ..⟩

/-- The wire frame laid out from its fields (R67). -/
def frameBytes (magic offsetHex : Bytes 4) (action : Byte) (dataHex : Bytes 32) (term : Byte) : Bytes 42 :=
  ⟨magic.val ++ (offsetHex.val ++ (action :: (dataHex.val ++ [term]))), by
    simp [magic.property, offsetHex.property, dataHex.property]⟩

/-- Frame bytes 0-3, MAGIC (R68). -/
def frameMagic (f : Bytes 42) : Bytes 4 := sliceBytes f 0 4 (by omega)
/-- Frame bytes 4-7, OFFSET_HEX (R69). -/
def frameOffsetHex (f : Bytes 42) : Bytes 4 := sliceBytes f 4 4 (by omega)
/-- Frame byte 8, ACTION (R70). -/
def frameAction (f : Bytes 42) : Byte := byteAt f 8 (by omega)
/-- Frame bytes 9-40, DATA_HEX (R71). -/
def frameDataHex (f : Bytes 42) : Bytes 32 := sliceBytes f 9 32 (by omega)
/-- Frame byte 41, the terminator (R72). -/
def frameTerm (f : Bytes 42) : Byte := byteAt f 41 (by omega)

/-- A 42-byte frame is FRAME_WRITE or FRAME_OTHER by byte 8 alone (R76). -/
def decodeFrame (f : Bytes 42) : Instr :=
  if frameAction f = 0x57#8 then .frameWrite (frameMagic f) (frameOffsetHex f) (frameDataHex f) (frameTerm f)
  else .frameOther (frameMagic f) (frameOffsetHex f) (frameAction f) (frameDataHex f) (frameTerm f)

/-- The command code table (R77); every other code is reserved (R78). -/
def decodeCommand (c : Byte) : Instr :=
  if c = 0x01#8 then .cmdEncode
  else if c = 0x02#8 then .cmdDecode
  else if c = 0x03#8 then .cmdValidate
  else if c = 0x10#8 then .cmdStartSend
  else if c = 0x11#8 then .cmdStartRecv
  else .cmdReserved c

/-- A host value as one byte: a number below 256, or a sequence of one byte (R80, R81; log 5). -/
def valueAsByte : HostValue → Option Byte
  | .num n => if n < 256 then some (BitVec.ofNat 8 n) else none
  | .bytes [b] => some b
  | .bytes _ => none

/-- A host write: a byte written to register 0x00 issues a command (R25, R77); every other write is WR (R80). -/
def decodeWrite (t : HostTarget) (v : HostValue) : Instr :=
  if t = .reg 0x00#8 then
    match valueAsByte v with
    | some c => decodeCommand c
    | none => .wr t v
  else .wr t v

/-- The decoder. -/
def decode : Encoded → Except DecodeError Instr
  | .frame bs => if h : bs.length = 42 then .ok (decodeFrame ⟨bs, h⟩) else .error .frameLength
  | .ack bs => if bs = [] then .error .ackEmpty else .ok (.ackFrame bs)
  | .host (.write t v) => .ok (decodeWrite t v)
  | .host (.read t) => .ok (.rd t)

/-- A write of a command code to CMD (R77). -/
def encodeCommand (c : Byte) : Encoded := .host (.write (.reg 0x00#8) (.num c.toNat))

/-- The encoder, from the same tables (R67, R74, R77, R80). -/
def encode : Instr → Encoded
  | .frameWrite magic offsetHex dataHex term => .frame (frameBytes magic offsetHex 0x57#8 dataHex term).val
  | .frameOther magic offsetHex action dataHex term => .frame (frameBytes magic offsetHex action dataHex term).val
  | .ackFrame bytes => .ack bytes
  | .cmdEncode => encodeCommand 0x01#8
  | .cmdDecode => encodeCommand 0x02#8
  | .cmdValidate => encodeCommand 0x03#8
  | .cmdStartSend => encodeCommand 0x10#8
  | .cmdStartRecv => encodeCommand 0x11#8
  | .cmdReserved code => encodeCommand code
  | .wr t v => .host (.write t v)
  | .rd t => .host (.read t)

/-- The lowest `k` bytes of a number, least significant first: the table's numbering of an instruction's bits. -/
def bytesOfNat : Nat → Nat → List Byte
  | 0, _ => []
  | k + 1, w => BitVec.ofNat 8 w :: bytesOfNat k (w / 256)

/-- The lowest 42 bytes of a number, as a frame. -/
def frameOfNat (w : Nat) : Bytes 42 :=
  ⟨bytesOfNat 42 w, by simp [bytesOfNat]⟩

/-- `w` without the bits above the lowest `nbits`. -/
def lowBits (nbits w : Nat) : Nat := w % (2 ^ (nbits % 8) * 256 ^ (nbits / 8))

/-- A table word as it stands before decoding. The table gives bits to two formats only: up to 8 bits are a command code written to
CMD (`host_cmd`), more are the bytes of a wire frame, byte 0 lowest (`wire_frame_42`). -/
def tableWord (nbits w : Nat) : Option Encoded :=
  if nbits ≤ 8 then some (encodeCommand (BitVec.ofNat 8 (lowBits nbits w)))
  else if nbits ≤ 336 then some (.frame (frameOfNat (lowBits nbits w)).val)
  else none

/-- What the decoder reads from a table word. -/
def decodeTableWord (nbits w : Nat) : Option Instr :=
  match tableWord nbits w with
  | none => none
  | some e =>
    match decode e with
    | .ok i => some i
    | .error _ => none

end Sys2Proof
end

