-- ==== Sys2Proof/Machine/Flags.lean ====
section
/-! DEFINITION. The block's only status flags (10_state.md R31, R32, R41): the two decode-status bits and the four validation
flags, computed here for the commands and for the flows alike. -/

namespace Sys2Proof.Machine

/-- `dstat`: bit 0 OFFSET_FAIL, bit 1 DATA_FAIL (R31, R88). -/
def dstatOf (offsetFail dataFail : Bool) : BitVec 2 := BitVec.ofBool dataFail ++ BitVec.ofBool offsetFail

/-- MAGIC_MISMATCH (R94): exact, byte by byte. -/
def magicMismatch (pktMagic magic : Bytes 4) : Bool := decide (pktMagic ≠ magic)

/-- ACTION_UNKNOWN (R95): only 0x57 is known, case-sensitively (D41). -/
def actionUnknown (action : Byte) : Bool := decide (action ≠ 0x57#8)

/-- OFFSET_MISALIGNED (R96, C5): the whole low nibble. -/
def offsetMisaligned (offset : BitVec 16) : Bool := decide (offset.extractLsb' 0 4 ≠ 0#4)

/-- OFFSET_RANGE (R97, C1): at the capacity is out of range. -/
def offsetRange (offset : BitVec 16) (capacity : BitVec 17) : Bool := decide (capacity.toNat ≤ offset.toNat)

/-- `validate` (R93): the four checks accumulate. PKT_DATA is not examined (R146), so it is no argument. -/
def validate (pktMagic : Bytes 4) (offset : BitVec 16) (action : Byte) (magic : Bytes 4) (capacity : BitVec 17) : BitVec 4 :=
  BitVec.ofBool (offsetRange offset capacity) ++ (BitVec.ofBool (offsetMisaligned offset) ++
    (BitVec.ofBool (actionUnknown action) ++ BitVec.ofBool (magicMismatch pktMagic magic)))

/-- `vflags[3:2] != 0`: an error-class flag is set, so the packet is not usable (R98). -/
def hasError (vflags : BitVec 4) : Bool := vflags.extractLsb' 2 2 != 0#2

end Sys2Proof.Machine
end

