-- ==== Sys2Proof/Machine/Codec.lean ====
section
/-! DEFINITION. The packet codec (40_codec.md): pure functions between a 42-byte frame and a packet. -/

namespace Sys2Proof.Machine

/-- A decoded packet (10_state.md R33, R40). -/
structure Packet where
  magic : Bytes 4
  offset : BitVec 16
  action : Byte
  data : Bytes 16
  deriving DecidableEq, Repr

/-- `hexdigit(n)` (R83): never lowercase. -/
def hexdigit (n : BitVec 4) : Byte :=
  if n < 10#4 then 0x30#8 + n.setWidth 8 else 0x41#8 + (n.setWidth 8 - 10#8)

/-- `hexval(c)` (R84): the sixteen digits and nothing else. -/
def hexval (c : Byte) : Option (BitVec 4) :=
  if 0x30#8 ≤ c ∧ c ≤ 0x39#8 then some ((c - 0x30#8).setWidth 4)
  else if 0x41#8 ≤ c ∧ c ≤ 0x46#8 then some ((c - 0x41#8 + 10#8).setWidth 4)
  else none

/-- `hexfield` of the digits after a prefix of value `acc`, most significant first. -/
def hexfieldFrom (acc : Nat) : List Byte → Option Nat
  | [] => some acc
  | c :: rest =>
    match hexval c with
    | none => none
    | some d => hexfieldFrom (acc * 16 + d.toNat) rest

/-- `hexfield(s)` (R85): one big-endian number, none if any digit is none. -/
def hexfield (s : List Byte) : Option Nat := hexfieldFrom 0 s

/-- The data field's digit pairs as bytes, high nibble first; none if any digit is none (R92). -/
def hexPairs : List Byte → Option (List Byte)
  | [] => some []
  | [_] => none
  | hi :: lo :: rest =>
    match hexfield [hi, lo], hexPairs rest with
    | some v, some vs => some (BitVec.ofNat 8 v :: vs)
    | _, _ => none

/-- A byte as two digits, high nibble first (R71). -/
def byteDigits (b : Byte) : List Byte := [hexdigit (b.extractLsb' 4 4), hexdigit (b.extractLsb' 0 4)]

/-- The data bytes as digits, byte 0 first (R71). -/
def bytesDigits : List Byte → List Byte
  | [] => []
  | b :: rest => byteDigits b ++ bytesDigits rest

theorem length_bytesDigits (d : List Byte) : (bytesDigits d).length = 2 * d.length := by
  induction d with
  | nil => rfl
  | cons b rest ih => simp [bytesDigits, byteDigits, ih]; omega

/-- DATA_HEX of 16 data bytes (R71). -/
def dataHexOf (d : Bytes 16) : Bytes 32 :=
  ⟨bytesDigits d.val, by rw [length_bytesDigits, d.property]⟩

/-- OFFSET_HEX of an offset: four digits, most significant first (R69). -/
def offsetHexOf (o : BitVec 16) : Bytes 4 :=
  ⟨[hexdigit (o.extractLsb' 12 4), hexdigit (o.extractLsb' 8 4), hexdigit (o.extractLsb' 4 4), hexdigit (o.extractLsb' 0 4)], rfl⟩

/-- The encode contract (R87): the offset `bi << 4` fits 16 bits. -/
def encodable (bi : BitVec 16) : Bool := decide (bi.toNat ≤ 0x0FFF)

/-- `encode(magic, bi, d)` (R86). Its callers check the contract first (R87). -/
def encodeFrame (magic : Bytes 4) (bi : BitVec 16) (d : Bytes 16) : Bytes 42 :=
  frameBytes magic (offsetHexOf (bi <<< 4)) 0x57#8 (dataHexOf d) 0x0D#8

/-- Decode step 2 (R90): the offset, none if a digit fails. -/
def decodeOffset (offsetHex : Bytes 4) : Option (BitVec 16) :=
  (hexfield offsetHex.val).map (BitVec.ofNat 16)

/-- Decode step 4 (R92): the 16 data bytes, none if a digit fails. -/
def decodeData (dataHex : Bytes 32) : Option (Bytes 16) :=
  match hexPairs dataHex.val with
  | some ds => if h : ds.length = 16 then some ⟨ds, h⟩ else none
  | none => none

/-- `decode(f)` (R88): all four steps always run, a failed field reads as zero, and byte 41 is not examined (D19). -/
def decodePacket (f : Bytes 42) : Packet × BitVec 2 :=
  let ov := decodeOffset (frameOffsetHex f)
  let dv := decodeData (frameDataHex f)
  ({ magic := frameMagic f, offset := ov.getD 0#16, action := frameAction f, data := dv.getD (zeroBytes 16) },
    dstatOf ov.isNone dv.isNone)

/-- `validate(pkt, magic, capacity)` on a decoded packet (R93). -/
def validatePacket (p : Packet) (magic : Bytes 4) (capacity : BitVec 17) : BitVec 4 :=
  validate p.magic p.offset p.action magic capacity

end Sys2Proof.Machine
end

