-- ==== Sys2Proof/Machine/Frames.lean ====
section
/-! DEFINITION. FRAME_WRITE and FRAME_OTHER: a wire frame that the receive flow has gathered, or that the send flow sends. The
layout is the same in both directions (30_encoding.md R67). -/

namespace Sys2Proof.Machine

/-- Steps 3 and 5, the cursor's side (43_receive_flow.md R131, R132): the jump's event, if there is one. -/
def emitJump (cursor ni : BitVec 16) (s : State) : State :=
  if cursor < ni then emit .rxGap cursor ni s
  else if ni < cursor then emit .rxRewind cursor ni s
  else s

/-- Step 2's event (R129): one record that carries every flag, and none when no flag is set. -/
def emitFlags (vf : BitVec 4) (offset : BitVec 16) (s : State) : State :=
  if vf ≠ 0#4 then emit .rxValidate (vf.setWidth 16) offset s else s

/-- Step 4 (R133): the write action writes its 16 bytes, any other action writes nothing. -/
def frameImage (p : Packet) (m : Image) : Option Image :=
  if p.action = 0x57#8 then memWrite p.offset.toNat p.data.val m else some m

/-- Steps 3 to 5 for a packet without errors (R131-R135). -/
def acceptPacket (p : Packet) (s : State) : Out :=
  match frameImage p s.image with
  | none => .refused .imageWriteOutside
  | some m =>
    .next { emitJump (flowCursor s) (p.offset >>> 4) s with
      image := m, cursor := some ((p.offset >>> 4) + 1#16), flow := .rxAckWrite }

/-- Steps 1 to 5 for a gathered frame (R128-R135). A frame that does not decode, or that has an error flag, is thrown away after its
one event; the flow stays in RX_FRAME. -/
def processFrame (f : Bytes 42) (s : State) : Out :=
  let (p, ds) := decodePacket f
  if ds ≠ 0#2 then .next (emit .rxDecodeFail (ds.setWidth 16) 0#16 s)
  else
    let vf := validatePacket p (flowMagic s) (flowCapacity s)
    if hasError vf then .next (emitFlags vf p.offset s)
    else acceptPacket p (emitFlags vf p.offset s)

/-- A wire frame where it stands: gathered in RX_FRAME, sent in TX_WRITE (42_send_flow.md R113), echoed in TX_ECHO (R114). -/
def runFrame (f : Bytes 42) (s : State) : Out :=
  match s.flow with
  | .rxFrame => processFrame f s
  | .txWrite => adapterWrite f.val .txEcho s
  | .txEcho => adapterEcho f.val (fun t => .next { t with flow := .txAck }) s
  | .idle => .refused .frameNotExpected
  | .txFetch => .refused .frameNotExpected
  | .txAck => .refused .frameNotExpected
  | .rxAckWrite => .refused .frameNotExpected
  | .rxAckEcho => .refused .frameNotExpected
  | .doneOk => .refused .frameNotExpected
  | .doneFail => .refused .frameNotExpected
  | .fatal => .refused .frameNotExpected

/-- FRAME_WRITE (R76, R133). -/
def execFrameWrite (magic offsetHex : Bytes 4) (dataHex : Bytes 32) (term : Byte) (s : State) : Out :=
  runFrame (frameBytes magic offsetHex 0x57#8 dataHex term) s

/-- FRAME_OTHER (R79): accepted like any frame, without a memory write. -/
def execFrameOther (magic offsetHex : Bytes 4) (action : Byte) (dataHex : Bytes 32) (term : Byte) (s : State) : Out :=
  runFrame (frameBytes magic offsetHex action dataHex term) s

end Sys2Proof.Machine
end

