-- ==== Sys2Proof/Machine/Operands.lean ====
section
/-! DEFINITION. The operand forms of the host port: the register map, the values a register takes, and the codes of STATE, of the
fatal causes and of the events (10_state.md R22, R24, R26; 60_exceptions.md R158, R161). -/

namespace Sys2Proof.Machine

/-- The registers of the host register map (R24). -/
inductive Reg where
  | cmd
  | status
  | cfgCapacity
  | cfgMagic
  | cfgAckLen
  | cfgAck
  | pktMagic
  | pktOffset
  | pktAction
  | pktData
  | pktBlock
  | decStatus
  | valFlags
  | frame
  | sendIndex
  | cursor
  deriving DecidableEq, Repr

/-- The register a number names; 0x06, 0x07 and 0x12 to 0xFF are reserved (R24). -/
def regOf (n : BitVec 8) : Option Reg :=
  if n = 0x00#8 then some .cmd
  else if n = 0x01#8 then some .status
  else if n = 0x02#8 then some .cfgCapacity
  else if n = 0x03#8 then some .cfgMagic
  else if n = 0x04#8 then some .cfgAckLen
  else if n = 0x05#8 then some .cfgAck
  else if n = 0x08#8 then some .pktMagic
  else if n = 0x09#8 then some .pktOffset
  else if n = 0x0A#8 then some .pktAction
  else if n = 0x0B#8 then some .pktData
  else if n = 0x0C#8 then some .pktBlock
  else if n = 0x0D#8 then some .decStatus
  else if n = 0x0E#8 then some .valFlags
  else if n = 0x0F#8 then some .frame
  else if n = 0x10#8 then some .sendIndex
  else if n = 0x11#8 then some .cursor
  else none

/-- The 4-bit code of a STATE value (R22). -/
def flowCode : FlowState → BitVec 4
  | .idle => 0x0#4
  | .txFetch => 0x1#4
  | .txWrite => 0x2#4
  | .txEcho => 0x3#4
  | .txAck => 0x4#4
  | .rxFrame => 0x5#4
  | .rxAckWrite => 0x6#4
  | .rxAckEcho => 0x7#4
  | .doneOk => 0x8#4
  | .doneFail => 0x9#4
  | .fatal => 0xF#4

/-- The busy states, 0x1 to 0x7 (R22). -/
def isBusy : FlowState → Bool
  | .idle => false
  | .txFetch => true
  | .txWrite => true
  | .txEcho => true
  | .txAck => true
  | .rxFrame => true
  | .rxAckWrite => true
  | .rxAckEcho => true
  | .doneOk => false
  | .doneFail => false
  | .fatal => false

/-- The receive flow's busy states (R54). -/
def isReceiving : FlowState → Bool
  | .idle => false
  | .txFetch => false
  | .txWrite => false
  | .txEcho => false
  | .txAck => false
  | .rxFrame => true
  | .rxAckWrite => true
  | .rxAckEcho => true
  | .doneOk => false
  | .doneFail => false
  | .fatal => false

/-- The 8-bit code of a fatal cause (R161). -/
def causeCode : FatalCause → BitVec 8
  | .noCause => 0x00#8
  | .encodeRange => 0x01#8
  | .selfcheckDecode => 0x02#8
  | .selfcheckInvalid => 0x03#8
  | .writeShort => 0x10#8
  | .writeError => 0x11#8
  | .echoShort => 0x12#8
  | .echoError => 0x13#8
  | .echoMismatch => 0x14#8
  | .rxReadError => 0x20#8
  | .ackReadError => 0x21#8

/-- The 8-bit code of an event (R158). -/
def eventNumber : EventCode → BitVec 8
  | .rxIdle => 0x01#8
  | .rxShortFrame => 0x02#8
  | .rxDecodeFail => 0x03#8
  | .rxValidate => 0x04#8
  | .rxGap => 0x05#8
  | .rxRewind => 0x06#8
  | .txAckMismatch => 0x10#8

/-- The classes of R158's table. -/
inductive EventClass where
  | info
  | warning
  | errorLevelWarning
  | error
  deriving DecidableEq, Repr

/-- The class of an event (R158): that of RX_VALIDATE is in its flags. -/
def eventClass (e : Event) : EventClass :=
  match e.code with
  | .rxIdle => .info
  | .rxShortFrame => .error
  | .rxDecodeFail => .error
  | .rxValidate => if e.a.extractLsb' 2 2 = 0#2 then .warning else .error
  | .rxGap => .warning
  | .rxRewind => .errorLevelWarning
  | .txAckMismatch => .warning

/-- The warnings of a run are its events whose class is not info (R159). -/
def isWarning (e : Event) : Bool := eventClass e != .info

/-- STATUS (R26): [3:0] STATE, [7:4] FATAL_STATE, [15:8] FATAL_CAUSE, [31:16] zero. -/
def statusWord (s : State) : BitVec 32 :=
  0x0000#16 ++ (causeCode s.fatalCause ++ (flowCode s.fatalState ++ flowCode s.flow))

/-- A host value as a number of `w` bits (R80, R142). -/
def valueAsBits (w : Nat) : HostValue → Option (BitVec w)
  | .num n => if n < 2 ^ w then some (BitVec.ofNat w n) else none
  | .bytes _ => none

/-- A host value as exactly `n` bytes (R80, R142). -/
def valueAsBytes (n : Nat) : HostValue → Option (Bytes n)
  | .num _ => none
  | .bytes bs => if h : bs.length = n then some ⟨bs, h⟩ else none

/-- The legal values of CFG_CAPACITY (R9, R27). -/
def capacityLegal (c : BitVec 17) : Bool := c.toNat % 16 = 0 && 16 ≤ c.toNat && c.toNat ≤ 0x10000

/-- A host value as an acknowledgement: 1 to ACK_MAX bytes, of a length CFG_ACK_LEN can hold (R8, R29). -/
def valueAsAck (ackMax : Nat) : HostValue → Option (List Byte)
  | .num _ => none
  | .bytes bs => if 1 ≤ bs.length ∧ bs.length ≤ ackMax ∧ bs.length < 0x10000 then some bs else none

end Sys2Proof.Machine
end

