-- ==== Sys2Proof/Machine/Commands.lean ====
section
/-! DEFINITION. The host commands (44_host_commands.md R143-R149). -/

namespace Sys2Proof.Machine

/-- Command dispatch by STATE (R143): refused while busy and in FATAL. -/
def commandGate (s : State) (k : Out) : Out :=
  if isBusy s.flow then .refused .commandWhileBusy
  else if s.flow = .fatal then .refused .commandInFatal
  else k

/-- CMD_ENCODE (R144): refused without its operands, then the contract, then FRAME. -/
def execCmdEncode (s : State) : Out :=
  commandGate s <|
    withOperand s.pktBlock fun bi =>
      withOperand s.pktData fun d =>
        withOperand s.cfgMagic fun magic =>
          if encodable bi then .next { s with frame := some (encodeFrame magic bi d) }
          else .next (raiseFatal .encodeRange s)

/-- CMD_DECODE (R145). -/
def execCmdDecode (s : State) : Out :=
  commandGate s <|
    withOperand s.frame fun f =>
      let (p, ds) := decodePacket f
      .next { s with
        pktMagic := some p.magic, pktOffset := some p.offset, pktAction := some p.action, pktData := some p.data,
        decStatus := some (ds.setWidth 8) }

/-- CMD_VALIDATE (R146): PKT_DATA is not examined and may hold no value. -/
def execCmdValidate (s : State) : Out :=
  commandGate s <|
    withOperand s.pktMagic fun pm =>
      withOperand s.pktOffset fun offset =>
        withOperand s.pktAction fun action =>
          withOperand s.cfgMagic fun magic =>
            withOperand s.cfgCapacity fun capacity =>
              .next { s with valFlags := some ((validate pm offset action magic capacity).setWidth 8) }

/-- A START needs all three configuration registers (R30, R147, R148). -/
def withConfig (s : State) (k : BitVec 17 → Out) : Out :=
  withOperand s.cfgCapacity fun capacity =>
    withOperand s.cfgMagic fun _ =>
      withOperand s.cfgAck fun _ => k capacity

/-- CMD_START_SEND (R147). -/
def execCmdStartSend (s : State) : Out :=
  commandGate s <|
    withConfig s fun _ => .next { s with sendIndex := some 0#16, flow := .txFetch }

/-- CMD_START_RECV (R148). -/
def execCmdStartRecv (s : State) : Out :=
  commandGate s <|
    withConfig s fun capacity =>
      .next { s with image := zeroImage capacity, cursor := some 0#16, rxCount := some 0#6, flow := .rxFrame }

/-- CMD_RESERVED (R78, R149): refused in every state. -/
def execCmdReserved (_code : Byte) (s : State) : Out :=
  commandGate s (.refused .reservedCommand)

/-- A write of `c` to CMD issues command `c` (R25, R77, R143). -/
def issueCommand (c : Byte) (s : State) : Out :=
  if c = 0x01#8 then execCmdEncode s
  else if c = 0x02#8 then execCmdDecode s
  else if c = 0x03#8 then execCmdValidate s
  else if c = 0x10#8 then execCmdStartSend s
  else if c = 0x11#8 then execCmdStartRecv s
  else execCmdReserved c s

end Sys2Proof.Machine
end

