-- ==== Sys2Proof/Machine/HostPort.lean ====
section
/-! DEFINITION. WR and RD: the host's register and image accesses (44_host_commands.md R141, R142). -/

namespace Sys2Proof.Machine

/-- Go on with a host value that the register admits (R142). -/
def withLegal {α : Type} (o : Option α) (k : α → Out) : Out :=
  match o with
  | some a => k a
  | none => .refused .illegalValue

/-- A configuration register is written only when the block is not busy (10_state.md R30). -/
def configGate (s : State) (k : Out) : Out :=
  if isBusy s.flow then .refused .configWhileBusy else k

/-- A host write of a register, whole (R141). -/
def writeRegister (r : Reg) (v : HostValue) (s : State) : Out :=
  match r with
  | .cmd => withLegal (valueAsByte v) fun c => issueCommand c s
  | .status => .refused .readOnlyRegister
  | .cfgCapacity =>
    configGate s <| withLegal (valueAsBits 17 v) fun c =>
      if capacityLegal c then .next { s with cfgCapacity := some c } else .refused .illegalValue
  | .cfgMagic => configGate s <| withLegal (valueAsBytes 4 v) fun m => .next { s with cfgMagic := some m }
  | .cfgAckLen => .refused .readOnlyRegister
  | .cfgAck =>
    configGate s <| withLegal (valueAsAck s.params.ackMax v) fun a =>
      .next { s with cfgAck := some a, cfgAckLen := some (BitVec.ofNat 16 a.length) }
  | .pktMagic => withLegal (valueAsBytes 4 v) fun m => .next { s with pktMagic := some m }
  | .pktOffset => withLegal (valueAsBits 16 v) fun o => .next { s with pktOffset := some o }
  | .pktAction => withLegal (valueAsByte v) fun a => .next { s with pktAction := some a }
  | .pktData => withLegal (valueAsBytes 16 v) fun d => .next { s with pktData := some d }
  | .pktBlock => withLegal (valueAsBits 16 v) fun b => .next { s with pktBlock := some b }
  | .decStatus => .refused .readOnlyRegister
  | .valFlags => .refused .readOnlyRegister
  | .frame => withLegal (valueAsBytes 42 v) fun f => .next { s with frame := some f }
  | .sendIndex => .refused .readOnlyRegister
  | .cursor => .refused .readOnlyRegister

/-- What a register reads as: none where it holds no value (10_state.md R39) or, for CMD, keeps none (R25). -/
def readRegister (r : Reg) (s : State) : Option HostValue :=
  match r with
  | .cmd => none
  | .status => some (.num (statusWord s).toNat)
  | .cfgCapacity => s.cfgCapacity.map fun v => .num v.toNat
  | .cfgMagic => s.cfgMagic.map fun v => .bytes v.val
  | .cfgAckLen => s.cfgAckLen.map fun v => .num v.toNat
  | .cfgAck => s.cfgAck.map fun v => .bytes v
  | .pktMagic => s.pktMagic.map fun v => .bytes v.val
  | .pktOffset => s.pktOffset.map fun v => .num v.toNat
  | .pktAction => s.pktAction.map fun v => .num v.toNat
  | .pktData => s.pktData.map fun v => .bytes v.val
  | .pktBlock => s.pktBlock.map fun v => .num v.toNat
  | .decStatus => s.decStatus.map fun v => .num v.toNat
  | .valFlags => s.valFlags.map fun v => .num v.toNat
  | .frame => s.frame.map fun v => .bytes v.val
  | .sendIndex => s.sendIndex.map fun v => .num v.toNat
  | .cursor => s.cursor.map fun v => .num v.toNat

/-- A host read returns a value, and changes nothing else (R141, 20_memory.md R58). -/
def hostReply (t : HostTarget) (v : HostValue) (s : State) : State :=
  { s with readLog := s.readLog ++ [{ target := t, value := v }] }

/-- WR (R80, R141, R142; IMAGE: 20_memory.md R54). -/
def execWr (t : HostTarget) (v : HostValue) (s : State) : Out :=
  match t with
  | .image _ => .refused .imageReadOnly
  | .reg n =>
    match regOf n with
    | none => .refused .reservedRegister
    | some r => writeRegister r v s

/-- RD (R141, R142; IMAGE: 20_memory.md R54). -/
def execRd (t : HostTarget) (s : State) : Out :=
  match t with
  | .image a =>
    if isReceiving s.flow then .refused .imageWhileReceiving
    else
      match imageByte a s.image with
      | none => .refused .imageByteAbsent
      | some b => .next (hostReply t (.num b.toNat) s)
  | .reg n =>
    match regOf n with
    | none => .refused .reservedRegister
    | some r =>
      if r = .cmd then .refused .writeOnlyRegister
      else withOperand (readRegister r s) fun v => .next (hostReply t v s)

end Sys2Proof.Machine
end

