-- ==== Sys2Proof/Machine/Dispatch.lean ====
section
/-! DEFINITION. One arm per row of spec/opcode_table.json. -/

namespace Sys2Proof.Machine

def exec (i : Instr) (s : State) : Host.Outcome State Fault Refusal :=
  match i with
  | .frameWrite magic offsetHex dataHex term => Sys2Proof.Machine.execFrameWrite magic offsetHex dataHex term s
  | .frameOther magic offsetHex action dataHex term => Sys2Proof.Machine.execFrameOther magic offsetHex action dataHex term s
  | .ackFrame bytes => Sys2Proof.Machine.execAckFrame bytes s
  | .cmdEncode => Sys2Proof.Machine.execCmdEncode s
  | .cmdDecode => Sys2Proof.Machine.execCmdDecode s
  | .cmdValidate => Sys2Proof.Machine.execCmdValidate s
  | .cmdStartSend => Sys2Proof.Machine.execCmdStartSend s
  | .cmdStartRecv => Sys2Proof.Machine.execCmdStartRecv s
  | .cmdReserved code => Sys2Proof.Machine.execCmdReserved code s
  | .wr target value => Sys2Proof.Machine.execWr target value s
  | .rd target => Sys2Proof.Machine.execRd target s

end Sys2Proof.Machine
end

