-- ==== Sys2Proof/Machine/Flow.lean ====
section
/-! DEFINITION. What the block does between instructions: the source read of the send flow (42_send_flow.md R109-R112), the framing
read of the receive flow (43_receive_flow.md R122-R127), the read of TX_ACK (R115), and which instruction stands next. -/

namespace Sys2Proof.Machine

/-- What a step begins with: an instruction to run, in the state the fetch leaves, or the step's whole outcome. -/
inductive Fetched where
  | run (i : Instr) (s : State)
  | finished (o : Out)

/-- Hand on the instruction the bytes or the access decode to. -/
def fetchDecoded (e : Encoded) (s : State) : Fetched :=
  match decode e with
  | .ok i => .run i s
  | .error _ => .finished (.refused .undecodable)

/-- The self-check on the frame in TXBUF (R112): decode status, then the error flags; no field is compared (D28, C6). -/
def selfCheck (f : Bytes 42) (magic : Bytes 4) (capacity : BitVec 17) (s : State) : State :=
  let (p, ds) := decodePacket f
  if ds ≠ 0#2 then raiseFatal .selfcheckDecode s
  else if hasError (validatePacket p magic capacity) then raiseFatal .selfcheckInvalid s
  else { s with flow := .txWrite }

/-- TX_FETCH after `Block(d)`: the contract before TXBUF is written (R111), encode (R110), self-check (R112). -/
def sendBlock (d : Bytes 16) (s : State) : Out :=
  if encodable (flowIndex s) then
    let f := encodeFrame (flowMagic s) (flowIndex s) d
    .next (selfCheck f (flowMagic s) (flowCapacity s) { s with txbuf := some f })
  else .next (raiseFatal .encodeRange s)

/-- TX_FETCH (R109). -/
def stepTxFetch (s : State) : Out :=
  match srcRead s with
  | .waiting => .next s
  | .outside => .refused .answerOutsideSignature
  | .answered .eof t => .next { t with flow := .doneOk }
  | .answered .error t => .next { t with flow := .doneFail }
  | .answered (.block d) t => sendBlock d t

/-- TX_ACK's read (R115): one read of ACK_LEN bytes. The bytes it brings are an ACK_FRAME to run; a timeout brings none. -/
def fetchTxAck (s : State) : Fetched :=
  match rxRead (flowAckLen s).toNat .ack s with
  | .waiting => .finished (.next s)
  | .outside => .finished (.refused .answerOutsideSignature)
  | .answered .error t => .finished (.next (raiseFatal .ackReadError t))
  | .answered .timeout t => .finished (ackReceived [] t)
  | .answered (.data bs) t => fetchDecoded (.ack bs) t

/-- `RXBUF[i] <- b` (10_state.md R38). -/
def rxStore (buf : RxBuffer) (i : Nat) (b : Byte) : RxBuffer :=
  ⟨buf.val.set i (some b), by rw [List.length_set, buf.property]⟩

/-- A non-terminator byte (R126): the first 41 are stored, the count saturates at 42. -/
def gatherByte (b : Byte) (count : BitVec 6) (s : State) : State :=
  { s with
    rxbuf := if count < 41#6 then rxStore s.rxbuf count.toNat b else s.rxbuf,
    rxCount := some (if count < 42#6 then count + 1#6 else 42#6) }

/-- A terminator (R127): a frame of any length but 42 is thrown away; one of 42 bytes is an instruction to run. -/
def endFrame (count : BitVec 6) (s : State) : Fetched :=
  if count ≠ 41#6 then
    .finished (.next { emit .rxShortFrame (count.setWidth 16 + 1#16) 0#16 s with rxCount := some 0#6 })
  else
    let t := { s with rxbuf := rxStore s.rxbuf 41 0x0D#8, rxCount := some 0#6 }
    fetchDecoded (.frame (flowRxbuf t).val) t

/-- A timeout of the framing read (R124): a liveness no-op. -/
def idleTimeout (count : BitVec 6) (s : State) : State :=
  let t := emit .rxIdle (count.setWidth 16) 0#16 s
  if s.params.timeoutClearsFrame then { t with rxCount := some 0#6 } else t

/-- RX_FRAME (R122): one byte a read (D13). -/
def fetchRxFrame (s : State) : Fetched :=
  match rxRead 1 .rx s with
  | .waiting => .finished (.next s)
  | .outside => .finished (.refused .answerOutsideSignature)
  | .answered .error t => .finished (.next (raiseFatal .rxReadError t))
  | .answered .timeout t => .finished (.next (idleTimeout (flowCount t) t))
  | .answered (.data []) _ => .finished (.refused .answerOutsideSignature)
  | .answered (.data (b :: _)) t =>
    if b = 0x0D#8 then endFrame (flowCount t) t else .finished (.next (gatherByte b (flowCount t) t))

/-- TXBUF, the frame the send flow sends (R110, R113). -/
def fetchTxbuf (s : State) : Fetched :=
  fetchDecoded (.frame (flowTxbuf s).val) s

/-- CFG_ACK, the acknowledgement the receive flow sends (R136, R137). -/
def fetchCfgAck (s : State) : Fetched :=
  fetchDecoded (.ack (flowAck s)) s

/-- The active flow meets the environment's next answer. A state without a step asks for none (10_state.md R23). -/
def fetchFlow (s : State) : Fetched :=
  match s.flow with
  | .txFetch => .finished (stepTxFetch s)
  | .txWrite => fetchTxbuf s
  | .txEcho => fetchTxbuf s
  | .txAck => fetchTxAck s
  | .rxFrame => fetchRxFrame s
  | .rxAckWrite => fetchCfgAck s
  | .rxAckEcho => fetchCfgAck s
  | .idle => .finished (.refused .answerOutsideSignature)
  | .doneOk => .finished (.refused .answerOutsideSignature)
  | .doneFail => .finished (.refused .answerOutsideSignature)
  | .fatal => .finished (.refused .answerOutsideSignature)

/-- What the outside world does next decides what the step begins with (44_host_commands.md R141): a host access is decoded and run
at once, reset is taken at once (R176), and an answer goes to the active flow. With nothing in the inbox the block waits
(10_state.md R23, 60_exceptions.md R175). DESIGN CHOICE (log 14): R176's "abandoned mid-step" is a reset that comes while a step waits
for its answer; once the answer is there the step is whole, and a reset comes after it. -/
def fetch (s : State) : Fetched :=
  match s.inbox with
  | [] => .finished (.next s)
  | .host a :: rest => fetchDecoded (.host a) { s with inbox := rest }
  | .reset :: rest => .finished (.next (resetBlock { s with inbox := rest }))
  | .tx _ :: _ => fetchFlow s
  | .rx _ :: _ => fetchFlow s
  | .src _ :: _ => fetchFlow s

/-- The state in which a table word stands next (log 8): a command code as the next host write to CMD; a frame that ends in the
terminator as gathered up to its last byte, which is the transport's next answer; any other frame, which the receive flow could never
complete, in TXBUF as the send flow sends it. -/
def placeEncoded (e : Encoded) (s : State) : State :=
  match e with
  | .host a => { s with inbox := .host a :: s.inbox }
  | .ack bs => { s with flow := .txAck, cfgAckLen := some (BitVec.ofNat 16 bs.length), inbox := .rx (.data bs) :: s.inbox }
  | .frame bs =>
    if bs.getD 41 0x00#8 = 0x0D#8 then
      { s with
        flow := .rxFrame,
        rxCount := some 41#6,
        rxbuf := (List.range 41).foldl (fun buf i => rxStore buf i (bs.getD i 0x00#8)) s.rxbuf,
        inbox := .rx (.data [0x0D#8]) :: s.inbox }
    else if h : bs.length = 42 then
      { s with flow := .txWrite, txbuf := some ⟨bs, h⟩, inbox := .tx (.written 42) :: s.inbox }
    else s

/-- `placeEncoded` of a table word; a word the table has no format for leaves the state alone. -/
def placeTableWord (nbits w : Nat) (s : State) : State :=
  match tableWord nbits w with
  | none => s
  | some e => placeEncoded e s

end Sys2Proof.Machine
end

