-- ==== Sys2Proof/Machine/Step.lean ====
section
/-! DEFINITION. One step of the machine, and the placing of a table word where the next step runs it. -/

namespace Sys2Proof.Machine

/-- Run what was fetched. -/
def runFetched : Fetched → Host.Outcome State Fault Refusal
  | .run i t => exec i t
  | .finished o => o

/-- One step: fetch, then run what was fetched. -/
def step (s : State) : Host.Outcome State Fault Refusal := runFetched (fetch s)

/-- `s` with the table word placed so that the very next step runs it (log 8). -/
def State.withFetchWord (s : State) (nbits w : Nat) : State := placeTableWord nbits w s

end Sys2Proof.Machine
end

