-- ==== Sys2Proof/Safety.lean ====
section
/-! DEFINITION. The states a run of the block reaches, as a predicate that every step keeps (10_state.md R26, R27, R29, R30, R31, R32,
R35, R36, R38; 20_memory.md R50; 42_send_flow.md R112; 43_receive_flow.md R138), and which stops a good run can meet. -/

namespace Sys2Proof.Machine

/-- The FATAL fields (R26, R160, R163): a cause stands exactly in FATAL, raised by a state that is not FATAL. -/
abbrev FatalFieldsOk (s : State) : Prop :=
  (s.flow = .fatal ↔ s.fatalCause ≠ .noCause) ∧ (s.flow ≠ .fatal → s.fatalState = .idle) ∧ s.fatalState ≠ .fatal

/-- The configuration (R27, R29, R30): legal values, CFG_ACK_LEN the length of CFG_ACK, all three held while busy. -/
abbrev ConfigOk (s : State) : Prop :=
  s.cfgCapacity.all capacityLegal
  ∧ s.cfgAck.all (fun a => 1 ≤ a.length && a.length ≤ s.params.ackMax && a.length < 0x10000)
  ∧ s.cfgAckLen = s.cfgAck.map (fun a => BitVec.ofNat 16 a.length)
  ∧ (isBusy s.flow = true → s.cfgCapacity.isSome ∧ s.cfgMagic.isSome ∧ s.cfgAck.isSome)

/-- The frame decodes and validates without error under the configuration held (R112). -/
def frameChecked (s : State) (f : Bytes 42) : Bool :=
  (decodePacket f).2 == 0#2 &&
    s.cfgMagic.all fun magic => s.cfgCapacity.all fun capacity => !hasError (validatePacket (decodePacket f).1 magic capacity)

/-- The send flow (R35, R111, R112): the index stays in 0 to 0x1000, below 0x1000 once its block is encoded, and only a checked
frame is sent. -/
abbrev SendOk (s : State) : Prop :=
  s.sendIndex.all (fun i => i.toNat ≤ 0x1000)
  ∧ (s.flow = .txFetch → s.sendIndex.isSome)
  ∧ (s.flow = .txWrite ∨ s.flow = .txEcho ∨ s.flow = .txAck → s.sendIndex.any fun i => i.toNat ≤ 0x0FFF)
  ∧ (s.flow = .txWrite ∨ s.flow = .txEcho → s.txbuf.any (frameChecked s))

/-- The bytes counted by RX_COUNT are held in RXBUF (R38). -/
def rxbufHolds (s : State) (count : BitVec 6) : Bool := (s.rxbuf.val.take (min count.toNat 41)).all Option.isSome

/-- The cursor lies inside the capacity, and before it in RX_FRAME (R138). -/
def cursorInside (s : State) (c : BitVec 16) : Bool :=
  s.cfgCapacity.all fun capacity =>
    c.toNat * 16 ≤ capacity.toNat && (s.flow != .rxFrame || decide (c.toNat * 16 < capacity.toNat))

/-- The receive flow (R36, R38, R138): the cursor stays in 0 to 0x1000 and inside the capacity, before it in RX_FRAME; the count
stays in 0 to 42; the image has the extent of the configured capacity. -/
abbrev ReceiveOk (s : State) : Prop :=
  s.cursor.all (fun c => c.toNat ≤ 0x1000)
  ∧ s.rxCount.all (fun n => n.toNat ≤ 42)
  ∧ (isReceiving s.flow = true →
      s.image.extent = s.cfgCapacity ∧ s.rxCount.any (rxbufHolds s) ∧ s.cursor.any (cursorInside s))

/-- The reserved bits of the flag registers read as 0 (R31, R32). -/
abbrev FlagsOk (s : State) : Prop :=
  s.decStatus.all (fun d => d.toNat < 4) ∧ s.valFlags.all (fun v => v.toNat < 16)

/-- The image is in canonical form, and its extent is a legal capacity (20_memory.md R50). -/
abbrev ImageOk (s : State) : Prop :=
  s.image.wf = true ∧ s.image.extent.all capacityLegal

/-- What holds of every state a run reaches. -/
abbrev Coherent (s : State) : Prop :=
  FatalFieldsOk s ∧ ConfigOk s ∧ SendOk s ∧ ReceiveOk s ∧ FlagsOk s ∧ ImageOk s

/-- An environment answer inside the signature of the access the block makes next (00_scope.md R14; 42_send_flow.md, 43_receive_flow.md
say which access each STATE makes). -/
def answerAdmitted (s : State) : Stimulus → Bool
  | .src _ => s.flow = .txFetch
  | .tx a =>
    match s.flow with
    | .txWrite => txAdmits 42 a
    | .rxAckWrite => (s.cfgAck.map fun k => txAdmits k.length a).getD false
    | _ => false
  | .rx a =>
    match s.flow with
    | .txEcho => rxAdmits 42 a
    | .txAck => (s.cfgAck.map fun k => rxAdmits k.length a).getD false
    | .rxFrame => rxAdmits 1 a
    | .rxAckEcho => (s.cfgAck.map fun k => rxAdmits k.length a).getD false
    | _ => false
  | .host _ => false
  | .reset => false

/-- The state after `TxWrite(bytes, cls)` was answered. -/
def afterTx (bytes : List Byte) (cls : TimeoutClass) (a : TxAnswer) (rest : List Stimulus) (s : State) : State :=
  { s with inbox := rest, portLog := s.portLog ++ [.txWrite bytes cls a] }

/-- The state after `RxRead(max, cls)` was answered. -/
def afterRx (max : Nat) (cls : TimeoutClass) (a : RxAnswer) (rest : List Stimulus) (s : State) : State :=
  { s with inbox := rest, portLog := s.portLog ++ [.rxRead max cls a] }

/-- The state after `SrcRead()` was answered. -/
def afterSrc (a : SrcAnswer) (rest : List Stimulus) (s : State) : State :=
  { s with inbox := rest, portLog := s.portLog ++ [.srcRead a] }

/-- The state after a host access was taken from the inbox. -/
def afterHost (rest : List Stimulus) (s : State) : State := { s with inbox := rest }

/-- The events a frame without an error flag emits (43_receive_flow.md R129, R131, R132): the flags, if any is set, and then the
jump, if there is one. -/
def acceptEvents (vf : BitVec 4) (offset cursor : BitVec 16) : List Event :=
  (if vf = 0#4 then [] else [{ code := .rxValidate, a := vf.setWidth 16, b := offset }]) ++
    (if cursor < offset >>> 4 then [{ code := .rxGap, a := cursor, b := offset >>> 4 }]
     else if offset >>> 4 < cursor then [{ code := .rxRewind, a := cursor, b := offset >>> 4 }]
     else [])

/-- An instruction's outcome, wherever it stands: `exec` of it answers `o`, and so does a step that finds it in the register
`held` speaks of (TXBUF, CFG_ACK). -/
def answersAs (i : Instr) (held : Prop) (s : State) (o : Out) : Prop := exec i s = o ∧ (held → step s = o)

/-- Is the head of the inbox the environment's answer to a port access? -/
def answersNext (s : State) : Bool :=
  match s.inbox with
  | .tx _ :: _ => true
  | .rx _ :: _ => true
  | .src _ :: _ => true
  | .host _ :: _ => false
  | .reset :: _ => false
  | [] => false

end Sys2Proof.Machine
end

