-- ==== Sys2Proof/Certificates/Slice0/Obligations.lean ====
section
/-! DEFINITION. The statements for the provers, in the order of OBLIGATIONS.json: the codec, the encodings, the commands, the host
port, frames and acknowledgements, the flows' steps, the whole machine. -/

open Sys2Proof Sys2Proof.Machine

/-! ### The codec (40_codec.md) -/

/-- R83, R84: the digit functions, value by value. -/
def Obligations.HexDigitValues : Prop :=
  (∀ n : BitVec 4, (hexdigit n).toNat = if n.toNat < 10 then 0x30 + n.toNat else 0x41 + (n.toNat - 10)) ∧
  (∀ c : Byte, (hexval c).map BitVec.toNat =
    if 0x30 ≤ c.toNat ∧ c.toNat ≤ 0x39 then some (c.toNat - 0x30)
    else if 0x41 ≤ c.toNat ∧ c.toNat ≤ 0x46 then some (c.toNat - 0x41 + 10)
    else none)

/-- R85: a field is one big-endian number, and none if any digit is none. -/
def Obligations.HexFieldIsBigEndian : Prop :=
  (∀ s : List Byte, (∃ c ∈ s, hexval c = none) → hexfield s = none) ∧
  (∀ s : List Byte, (∀ c ∈ s, (hexval c).isSome) →
    hexfield s = some (∑ i ∈ Finset.range s.length, ((hexval (s.getD i 0)).getD 0).toNat * 16 ^ (s.length - 1 - i)))

/-- R86: every byte of an encoded frame. -/
def Obligations.EncodeLaysOutEveryByte : Prop :=
  ∀ (magic : Bytes 4) (bi : BitVec 16) (d : Bytes 16),
    let f := (encodeFrame magic bi d).val
    let o := bi <<< 4
    f.take 4 = magic.val
    ∧ f.getD 4 0 = hexdigit (o.extractLsb' 12 4) ∧ f.getD 5 0 = hexdigit (o.extractLsb' 8 4)
    ∧ f.getD 6 0 = hexdigit (o.extractLsb' 4 4) ∧ f.getD 7 0 = hexdigit (o.extractLsb' 0 4)
    ∧ f.getD 8 0 = 0x57#8
    ∧ (∀ k, k < 16 → f.getD (9 + 2 * k) 0 = hexdigit ((d.val.getD k 0).extractLsb' 4 4)
        ∧ f.getD (10 + 2 * k) 0 = hexdigit ((d.val.getD k 0).extractLsb' 0 4))
    ∧ f.getD 41 0 = 0x0D#8

/-- R88 to R92: the four steps of decode, each independent of the others, and byte 41 not examined. -/
def Obligations.DecodeReadsEachField : Prop :=
  (∀ f : Bytes 42,
    let p := (decodePacket f).1
    let ds := (decodePacket f).2
    p.magic.val = f.val.take 4
    ∧ p.action = f.val.getD 8 0
    ∧ (match hexfield ((f.val.drop 4).take 4) with
       | some v => p.offset.toNat = v ∧ ds.getLsbD 0 = false
       | none => p.offset = 0#16 ∧ ds.getLsbD 0 = true)
    ∧ ((∀ k, k < 32 → (hexval (f.val.getD (9 + k) 0)).isSome) →
        ds.getLsbD 1 = false ∧
        ∀ k, k < 16 →
          hexfield [f.val.getD (9 + 2 * k) 0, f.val.getD (10 + 2 * k) 0] = some (p.data.val.getD k 0).toNat)
    ∧ ((∃ k, k < 32 ∧ hexval (f.val.getD (9 + k) 0) = none) →
        ds.getLsbD 1 = true ∧ p.data.val = List.replicate 16 0x00#8)) ∧
  (∀ f g : Bytes 42, f.val.take 41 = g.val.take 41 → decodePacket f = decodePacket g)

/-- R94 to R98: the four flags, each set exactly on its own condition, and the class of each. -/
def Obligations.ValidateSetsEachFlag : Prop :=
  ∀ (p : Packet) (magic : Bytes 4) (capacity : BitVec 17),
    let vf := validatePacket p magic capacity
    (vf.getLsbD 0 = true ↔ ∃ i, i < 4 ∧ p.magic.val.getD i 0 ≠ magic.val.getD i 0)
    ∧ (vf.getLsbD 1 = true ↔ p.action ≠ 0x57#8)
    ∧ (vf.getLsbD 2 = true ↔ p.offset.toNat % 16 ≠ 0)
    ∧ (vf.getLsbD 3 = true ↔ capacity.toNat ≤ p.offset.toNat)
    ∧ (hasError vf = false ↔ vf.getLsbD 2 = false ∧ vf.getLsbD 3 = false)

/-- R99: the round trip. -/
def Obligations.EncodedBlockDecodesBack : Prop :=
  ∀ (magic : Bytes 4) (bi : BitVec 16) (d : Bytes 16) (capacity : BitVec 17),
    bi.toNat ≤ 0x0FFF → bi.toNat * 16 < capacity.toNat →
      decodePacket (encodeFrame magic bi d) = ({ magic := magic, offset := bi <<< 4, action := 0x57#8, data := d }, 0#2)
      ∧ (bi <<< 4).toNat = bi.toNat * 16
      ∧ validatePacket { magic := magic, offset := bi <<< 4, action := 0x57#8, data := d } magic capacity = 0#4

/-- R100: the canonical form, and what follows from it: encode is injective, and no second spelling decodes to the same packet. -/
def Obligations.WriteFrameIsCanonical : Prop :=
  (∀ (f : Bytes 42) (p : Packet),
    decodePacket f = (p, 0#2) → f.val.getD 8 0 = 0x57#8 → f.val.getD 41 0 = 0x0D#8 → p.offset.toNat % 16 = 0 →
      encodeFrame p.magic (p.offset >>> 4) p.data = f) ∧
  (∀ (m m' : Bytes 4) (bi bi' : BitVec 16) (d d' : Bytes 16), bi.toNat ≤ 0x0FFF → bi'.toNat ≤ 0x0FFF →
      encodeFrame m bi d = encodeFrame m' bi' d' → m = m' ∧ bi = bi' ∧ d = d') ∧
  (∀ (f g : Bytes 42) (p : Packet), decodePacket f = (p, 0#2) → decodePacket g = (p, 0#2) → f.val.take 41 = g.val.take 41)

/-! ### The encodings (30_encoding.md) -/

/-- Every well-formed instruction is read back from its encoding, with every operand. -/
def Obligations.EncodedInstructionDecodesBack : Prop :=
  ∀ i : Instr, i.wf = true → decode (encode i) = .ok i

/-- R76: every 42-byte frame is an instruction, which of the two by byte 8 alone, and no bit of it is dropped. -/
def Obligations.EveryFrameIsAnInstruction : Prop :=
  ∀ f : Bytes 42,
    decode (.frame f.val) = .ok (decodeFrame f) ∧ encode (decodeFrame f) = .frame f.val
    ∧ (f.val.getD 8 0 = 0x57#8 →
        ∃ m o d t, decodeFrame f = .frameWrite m o d t)
    ∧ (f.val.getD 8 0 ≠ 0x57#8 →
        ∃ m o d t, decodeFrame f = .frameOther m o (f.val.getD 8 0) d t)

/-- Words written out from the spec's encodings (R77, R78, R80, and the frame of V1.8 in 95_test_vectors.md) decode to what they
stand for. -/
def Obligations.SpelledWordsDecode : Prop :=
  decode (.host (.write (.reg 0x00#8) (.num 0x01))) = .ok .cmdEncode
  ∧ decode (.host (.write (.reg 0x00#8) (.num 0x02))) = .ok .cmdDecode
  ∧ decode (.host (.write (.reg 0x00#8) (.num 0x03))) = .ok .cmdValidate
  ∧ decode (.host (.write (.reg 0x00#8) (.num 0x10))) = .ok .cmdStartSend
  ∧ decode (.host (.write (.reg 0x00#8) (.num 0x11))) = .ok .cmdStartRecv
  ∧ decode (.host (.write (.reg 0x00#8) (.num 0x04))) = .ok (.cmdReserved 0x04#8)
  ∧ decode (.host (.write (.reg 0x02#8) (.num 0x1000))) = .ok (.wr (.reg 0x02#8) (.num 0x1000))
  ∧ decode (.host (.read (.reg 0x01#8))) = .ok (.rd (.reg 0x01#8))
  ∧ decode (.ack [0x0D#8, 0x0A#8, 0x4F#8, 0x4B#8, 0x0D#8, 0x0A#8]) = .ok (.ackFrame [0x0D#8, 0x0A#8, 0x4F#8, 0x4B#8, 0x0D#8, 0x0A#8])
  ∧ decode (.frame [0x52#8, 0x50#8, 0x47#8, 0x4D#8, 0x30#8, 0x30#8, 0x30#8, 0x30#8, 0x57#8, 0x30#8, 0x31#8, 0x30#8, 0x32#8,
      0x30#8, 0x33#8, 0x30#8, 0x34#8, 0x30#8, 0x35#8, 0x30#8, 0x36#8, 0x30#8, 0x37#8, 0x30#8, 0x38#8, 0x30#8, 0x39#8, 0x30#8,
      0x41#8, 0x30#8, 0x42#8, 0x30#8, 0x43#8, 0x30#8, 0x44#8, 0x30#8, 0x45#8, 0x30#8, 0x46#8, 0x31#8, 0x30#8, 0x0D#8])
    = .ok (.frameWrite ⟨[0x52#8, 0x50#8, 0x47#8, 0x4D#8], rfl⟩ ⟨[0x30#8, 0x30#8, 0x30#8, 0x30#8], rfl⟩
        ⟨[0x30#8, 0x31#8, 0x30#8, 0x32#8, 0x30#8, 0x33#8, 0x30#8, 0x34#8, 0x30#8, 0x35#8, 0x30#8, 0x36#8, 0x30#8, 0x37#8, 0x30#8,
          0x38#8, 0x30#8, 0x39#8, 0x30#8, 0x41#8, 0x30#8, 0x42#8, 0x30#8, 0x43#8, 0x30#8, 0x44#8, 0x30#8, 0x45#8, 0x30#8, 0x46#8,
          0x31#8, 0x30#8], rfl⟩ 0x0D#8)

/-! ### The commands (44_host_commands.md) -/

/-- R144: CMD_ENCODE, everything it does where the dispatch admits a command. -/
def Obligations.CmdEncodeResult : Prop :=
  ∀ s : State, isBusy s.flow = false → s.flow ≠ .fatal →
    (∀ bi d magic, s.pktBlock = some bi → s.pktData = some d → s.cfgMagic = some magic →
      (bi.toNat ≤ 0x0FFF → exec .cmdEncode s = .next { s with frame := some (encodeFrame magic bi d) })
      ∧ (0x0FFF < bi.toNat →
          exec .cmdEncode s = .next { s with fatalState := s.flow, fatalCause := .encodeRange, flow := .fatal }))
    ∧ (s.pktBlock = none ∨ s.pktData = none ∨ s.cfgMagic = none → exec .cmdEncode s = .refused .noValue)

/-- R145: CMD_DECODE; the packet registers take the decoded fields also when the decode fails. -/
def Obligations.CmdDecodeResult : Prop :=
  ∀ s : State, isBusy s.flow = false → s.flow ≠ .fatal →
    (∀ f, s.frame = some f →
      exec .cmdDecode s = .next { s with
        pktMagic := some (decodePacket f).1.magic, pktOffset := some (decodePacket f).1.offset,
        pktAction := some (decodePacket f).1.action, pktData := some (decodePacket f).1.data,
        decStatus := some ((decodePacket f).2.setWidth 8) })
    ∧ (s.frame = none → exec .cmdDecode s = .refused .noValue)

/-- R146: CMD_VALIDATE; PKT_DATA may hold no value. -/
def Obligations.CmdValidateResult : Prop :=
  ∀ s : State, isBusy s.flow = false → s.flow ≠ .fatal →
    (∀ pm offset action magic capacity (d : Bytes 16),
      s.pktMagic = some pm → s.pktOffset = some offset → s.pktAction = some action → s.cfgMagic = some magic →
      s.cfgCapacity = some capacity →
        exec .cmdValidate s = .next { s with
          valFlags := some ((validatePacket { magic := pm, offset := offset, action := action, data := d } magic capacity).setWidth 8) })
    ∧ (s.pktMagic = none ∨ s.pktOffset = none ∨ s.pktAction = none ∨ s.cfgMagic = none ∨ s.cfgCapacity = none →
        exec .cmdValidate s = .refused .noValue)

/-- R147: CMD_START_SEND. -/
def Obligations.CmdStartSendResult : Prop :=
  ∀ s : State, isBusy s.flow = false → s.flow ≠ .fatal →
    (s.cfgCapacity.isSome → s.cfgMagic.isSome → s.cfgAck.isSome →
      exec .cmdStartSend s = .next { s with sendIndex := some 0#16, flow := .txFetch })
    ∧ (s.cfgCapacity = none ∨ s.cfgMagic = none ∨ s.cfgAck = none → exec .cmdStartSend s = .refused .noValue)

/-- R148: CMD_START_RECV; every byte of the new image reads 0x00, there is none beyond its extent, and a later write of CFG_CAPACITY
leaves it as it is. -/
def Obligations.CmdStartRecvResult : Prop :=
  (∀ (s u : State) (v : HostValue), exec (.wr (.reg 0x02#8) v) s = .next u → u.image = s.image) ∧
  ∀ s : State, isBusy s.flow = false → s.flow ≠ .fatal →
    (∀ capacity, s.cfgCapacity = some capacity → s.cfgMagic.isSome → s.cfgAck.isSome →
      ∃ img, img.extent = some capacity ∧ img.wf = true
        ∧ (∀ a, imageByte a img = if a < capacity.toNat then some 0x00#8 else none)
        ∧ exec .cmdStartRecv s = .next { s with image := img, cursor := some 0#16, rxCount := some 0#6, flow := .rxFrame })
    ∧ (s.cfgCapacity = none ∨ s.cfgMagic = none ∨ s.cfgAck = none → exec .cmdStartRecv s = .refused .noValue)

/-- R149: what is refused, for every code: a reserved one, any while busy, any in FATAL, and one whose operands hold no value; a
reserved code is refused in every state. -/
def Obligations.CommandsRefused : Prop :=
  (∀ (c : Byte) (s : State), isBusy s.flow = true → exec (decodeCommand c) s = .refused .commandWhileBusy) ∧
  (∀ (c : Byte) (s : State), s.flow = .fatal → exec (decodeCommand c) s = .refused .commandInFatal) ∧
  (∀ (c : Byte) (s : State), isCommandCode c = false →
    decodeCommand c = .cmdReserved c ∧ ∃ r, exec (.cmdReserved c) s = .refused r) ∧
  (∀ (c : Byte) (s : State), isCommandCode c = false → isBusy s.flow = false → s.flow ≠ .fatal →
    exec (.cmdReserved c) s = .refused .reservedCommand) ∧
  (∀ s : State, isBusy s.flow = false → s.flow ≠ .fatal →
    (s.pktBlock = none ∨ s.pktData = none ∨ s.cfgMagic = none → exec .cmdEncode s = .refused .noValue)
    ∧ (s.frame = none → exec .cmdDecode s = .refused .noValue)
    ∧ (s.pktMagic = none ∨ s.pktOffset = none ∨ s.pktAction = none ∨ s.cfgMagic = none ∨ s.cfgCapacity = none →
        exec .cmdValidate s = .refused .noValue)
    ∧ (s.cfgCapacity = none ∨ s.cfgMagic = none ∨ s.cfgAck = none →
        exec .cmdStartSend s = .refused .noValue ∧ exec .cmdStartRecv s = .refused .noValue))

/-! ### The host port (44_host_commands.md, 10_state.md) -/

/-- R28, R29, and the legal values of R27: writes of the configuration. -/
def Obligations.ConfigurationWrites : Prop :=
  (∀ (s : State), isBusy s.flow = false →
    (∀ k, k % 16 = 0 → 16 ≤ k → k ≤ 0x10000 →
      exec (.wr (.reg 0x02#8) (.num k)) s = .next { s with cfgCapacity := some (BitVec.ofNat 17 k) })
    ∧ (∀ k, ¬(k % 16 = 0 ∧ 16 ≤ k ∧ k ≤ 0x10000) → exec (.wr (.reg 0x02#8) (.num k)) s = .refused .illegalValue)
    ∧ (∀ m : Bytes 4, exec (.wr (.reg 0x03#8) (.bytes m.val)) s = .next { s with cfgMagic := some m })
    ∧ (∀ a : List Byte, 1 ≤ a.length → a.length ≤ s.params.ackMax → a.length < 0x10000 →
        exec (.wr (.reg 0x05#8) (.bytes a)) s =
          .next { s with cfgAck := some a, cfgAckLen := some (BitVec.ofNat 16 a.length) })
    ∧ (∀ a : List Byte, a.length = 0 ∨ s.params.ackMax < a.length →
        exec (.wr (.reg 0x05#8) (.bytes a)) s = .refused .illegalValue)) ∧
  (∀ (s : State) (v : HostValue), isBusy s.flow = true →
    exec (.wr (.reg 0x02#8) v) s = .refused .configWhileBusy
    ∧ exec (.wr (.reg 0x03#8) v) s = .refused .configWhileBusy
    ∧ exec (.wr (.reg 0x05#8) v) s = .refused .configWhileBusy) ∧
  (∀ (s : State) (v : HostValue), exec (.wr (.reg 0x04#8) v) s = .refused .readOnlyRegister)

/-- R33, R34, R141: writes of the packet registers and FRAME, in every STATE, and a byte written to CMD is that command (R25). -/
def Obligations.PacketRegisterWrites : Prop :=
  ∀ s : State,
    (∀ m : Bytes 4, exec (.wr (.reg 0x08#8) (.bytes m.val)) s = .next { s with pktMagic := some m })
    ∧ (∀ k, k < 0x10000 → exec (.wr (.reg 0x09#8) (.num k)) s = .next { s with pktOffset := some (BitVec.ofNat 16 k) })
    ∧ (∀ k, k < 0x100 → exec (.wr (.reg 0x0A#8) (.num k)) s = .next { s with pktAction := some (BitVec.ofNat 8 k) })
    ∧ (∀ b : Byte, exec (.wr (.reg 0x0A#8) (.bytes [b])) s = .next { s with pktAction := some b })
    ∧ (∀ d : Bytes 16, exec (.wr (.reg 0x0B#8) (.bytes d.val)) s = .next { s with pktData := some d })
    ∧ (∀ k, k < 0x10000 → exec (.wr (.reg 0x0C#8) (.num k)) s = .next { s with pktBlock := some (BitVec.ofNat 16 k) })
    ∧ (∀ f : Bytes 42, exec (.wr (.reg 0x0F#8) (.bytes f.val)) s = .next { s with frame := some f })
    ∧ (∀ bs : List Byte, bs.length ≠ 42 → exec (.wr (.reg 0x0F#8) (.bytes bs)) s = .refused .illegalValue)
    ∧ (∀ c : Byte, exec (.wr (.reg 0x00#8) (.num c.toNat)) s = exec (decodeCommand c) s
        ∧ exec (.wr (.reg 0x00#8) (.bytes [c])) s = exec (decodeCommand c) s)

/-- R142: the refused host accesses, item by item. Three clauses rest on the model's reading beside R142's words: the spec gives no
byte layout of a number at the port, so a sequence written to a numeric register and a number written to a byte register are refused,
but for one byte at CMD and PKT_ACTION (log 5); and an acknowledgement that CFG_ACK_LEN's 16 bits cannot count is refused (log 6). -/
def Obligations.HostAccessesRefused : Prop :=
  ∀ s : State,
    (∀ n : BitVec 8, n = 0x06#8 ∨ n = 0x07#8 ∨ 0x12 ≤ n.toNat →
      (∀ v, exec (.wr (.reg n) v) s = .refused .reservedRegister) ∧ exec (.rd (.reg n)) s = .refused .reservedRegister)
    ∧ exec (.rd (.reg 0x00#8)) s = .refused .writeOnlyRegister
    ∧ (∀ n ∈ [0x01#8, 0x04#8, 0x0D#8, 0x0E#8, 0x10#8, 0x11#8], ∀ v, exec (.wr (.reg n) v) s = .refused .readOnlyRegister)
    ∧ (∀ n ∈ [0x00#8, 0x0A#8], ∀ k, 0x100 ≤ k → ∃ r, exec (.wr (.reg n) (.num k)) s = .refused r)
    ∧ (∀ n ∈ [0x00#8, 0x0A#8], ∀ bs : List Byte, bs.length ≠ 1 → ∃ r, exec (.wr (.reg n) (.bytes bs)) s = .refused r)
    ∧ (∀ n ∈ [0x02#8, 0x09#8, 0x0C#8], ∀ bs : List Byte, ∃ r, exec (.wr (.reg n) (.bytes bs)) s = .refused r)
    ∧ (∀ n ∈ [0x03#8, 0x05#8, 0x08#8, 0x0B#8, 0x0F#8], ∀ k, ∃ r, exec (.wr (.reg n) (.num k)) s = .refused r)
    ∧ (∀ n ∈ [0x09#8, 0x0C#8], ∀ k, 0x10000 ≤ k → ∃ r, exec (.wr (.reg n) (.num k)) s = .refused r)
    ∧ (∀ k, ¬(k % 16 = 0 ∧ 16 ≤ k ∧ k ≤ 0x10000) → ∃ r, exec (.wr (.reg 0x02#8) (.num k)) s = .refused r)
    ∧ (∀ n ∈ [0x03#8, 0x08#8], ∀ bs : List Byte, bs.length ≠ 4 → ∃ r, exec (.wr (.reg n) (.bytes bs)) s = .refused r)
    ∧ (∀ bs : List Byte, bs.length ≠ 16 → ∃ r, exec (.wr (.reg 0x0B#8) (.bytes bs)) s = .refused r)
    ∧ (∀ bs : List Byte, bs.length ≠ 42 → ∃ r, exec (.wr (.reg 0x0F#8) (.bytes bs)) s = .refused r)
    ∧ (∀ bs : List Byte, bs.length = 0 ∨ s.params.ackMax < bs.length ∨ 0x10000 ≤ bs.length → ∃ r, exec (.wr (.reg 0x05#8) (.bytes bs)) s = .refused r)
    ∧ (isBusy s.flow = true → ∀ n ∈ [0x02#8, 0x03#8, 0x05#8], ∀ v, exec (.wr (.reg n) v) s = .refused .configWhileBusy)
    ∧ (∀ n r, regOf n = some r → r ≠ .cmd → readRegister r s = none → exec (.rd (.reg n)) s = .refused .noValue)
    ∧ (isReceiving s.flow = true → ∀ a, exec (.rd (.image a)) s = .refused .imageWhileReceiving)
    ∧ (isReceiving s.flow = false → ∀ a, imageByte a s.image = none → exec (.rd (.image a)) s = .refused .imageByteAbsent)
    ∧ (∀ a v, exec (.wr (.image a) v) s = .refused .imageReadOnly)

/-- R141: a host read returns the register's value, in every STATE, and changes nothing but the record of what it returned. -/
def Obligations.RegisterReads : Prop :=
  ∀ s : State,
    exec (.rd (.reg 0x01#8)) s =
      .next { s with readLog := s.readLog ++ [{ target := .reg 0x01#8, value := .num (statusWord s).toNat }] }
    ∧ (∀ (n : BitVec 8) (x : Option Nat),
        (n, x) ∈ [(0x02#8, s.cfgCapacity.map BitVec.toNat), (0x04#8, s.cfgAckLen.map BitVec.toNat),
          (0x09#8, s.pktOffset.map BitVec.toNat), (0x0A#8, s.pktAction.map BitVec.toNat), (0x0C#8, s.pktBlock.map BitVec.toNat),
          (0x0D#8, s.decStatus.map BitVec.toNat), (0x0E#8, s.valFlags.map BitVec.toNat), (0x10#8, s.sendIndex.map BitVec.toNat),
          (0x11#8, s.cursor.map BitVec.toNat)] →
        ∀ k, x = some k →
          exec (.rd (.reg n)) s = .next { s with readLog := s.readLog ++ [{ target := .reg n, value := .num k }] })
    ∧ (∀ (n : BitVec 8) (x : Option (List Byte)),
        (n, x) ∈ [(0x03#8, s.cfgMagic.map Subtype.val), (0x05#8, s.cfgAck), (0x08#8, s.pktMagic.map Subtype.val),
          (0x0B#8, s.pktData.map Subtype.val), (0x0F#8, s.frame.map Subtype.val)] →
        ∀ bs, x = some bs →
          exec (.rd (.reg n)) s = .next { s with readLog := s.readLog ++ [{ target := .reg n, value := .bytes bs }] })

/-- R54: host reads and writes of IMAGE; a byte of an image holds a value exactly inside the extent. FATAL is one of the states in
which a read is answered. -/
def Obligations.ImageReads : Prop :=
  ∀ (s : State) (a : Nat),
    (s.flow ≠ .rxFrame → s.flow ≠ .rxAckWrite → s.flow ≠ .rxAckEcho → ∀ e, s.image.extent = some e → a < e.toNat →
      ∃ b, imageByte a s.image = some b ∧
        exec (.rd (.image a)) s = .next { s with readLog := s.readLog ++ [{ target := .image a, value := .num b.toNat }] })
    ∧ (s.flow = .rxFrame ∨ s.flow = .rxAckWrite ∨ s.flow = .rxAckEcho →
        exec (.rd (.image a)) s = .refused .imageWhileReceiving)
    ∧ (∀ v, exec (.wr (.image a) v) s = .refused .imageReadOnly)

/-- R22, R26, R161, R158: STATUS's fields, the codes, and the classes of the events. -/
def Obligations.StatusFieldsAndCodes : Prop :=
  (∀ s : State,
    (statusWord s).extractLsb' 0 4 = flowCode s.flow ∧ (statusWord s).extractLsb' 4 4 = flowCode s.fatalState
    ∧ (statusWord s).extractLsb' 8 8 = causeCode s.fatalCause ∧ (statusWord s).extractLsb' 16 16 = 0#16) ∧
  [FlowState.idle, .txFetch, .txWrite, .txEcho, .txAck, .rxFrame, .rxAckWrite, .rxAckEcho, .doneOk, .doneFail, .fatal].map flowCode
    = [0x0#4, 0x1#4, 0x2#4, 0x3#4, 0x4#4, 0x5#4, 0x6#4, 0x7#4, 0x8#4, 0x9#4, 0xF#4] ∧
  [FatalCause.noCause, .encodeRange, .selfcheckDecode, .selfcheckInvalid, .writeShort, .writeError, .echoShort, .echoError,
      .echoMismatch, .rxReadError, .ackReadError].map causeCode
    = [0x00#8, 0x01#8, 0x02#8, 0x03#8, 0x10#8, 0x11#8, 0x12#8, 0x13#8, 0x14#8, 0x20#8, 0x21#8] ∧
  [EventCode.rxIdle, .rxShortFrame, .rxDecodeFail, .rxValidate, .rxGap, .rxRewind, .txAckMismatch].map eventNumber
    = [0x01#8, 0x02#8, 0x03#8, 0x04#8, 0x05#8, 0x06#8, 0x10#8] ∧
  (∀ a b : BitVec 16,
    eventClass { code := .rxIdle, a := a, b := b } = .info ∧ eventClass { code := .rxShortFrame, a := a, b := b } = .error
    ∧ eventClass { code := .rxDecodeFail, a := a, b := b } = .error
    ∧ (eventClass { code := .rxValidate, a := a, b := b } =
        if a.getLsbD 2 = false ∧ a.getLsbD 3 = false then .warning else .error)
    ∧ eventClass { code := .rxGap, a := a, b := b } = .warning
    ∧ eventClass { code := .rxRewind, a := a, b := b } = .errorLevelWarning
    ∧ eventClass { code := .txAckMismatch, a := a, b := b } = .warning)

/-! ### The image (20_memory.md) -/

/-- R51: `MemWrite` answers exactly when its `requires` holds; what it wrote reads back, every other byte reads as before; and no step
of a coherent state makes a call outside it. -/
def Obligations.MemWriteReadsBack : Prop :=
  (∀ (m : Image) (e : BitVec 17) (addr : Nat) (v : List Byte), m.extent = some e → m.wf = true →
    (e.toNat < addr + v.length → memWrite addr v m = none ∧ memRead addr v.length m = none)
    ∧ (addr + v.length ≤ e.toNat →
        ∃ m', memWrite addr v m = some m' ∧ m'.wf = true ∧ memRead addr v.length m' = some v
          ∧ ∀ a, a < addr ∨ addr + v.length ≤ a → imageByte a m' = imageByte a m)) ∧
  (∀ s : State, Coherent s → step s ≠ .refused .imageWriteOutside)

/-! ### Frames and acknowledgements (41_echo_adapter.md, 42_send_flow.md, 43_receive_flow.md) -/

/-- R79, R131 to R135: a frame that decodes and has no error flag. A FRAME_WRITE writes its 16 bytes at its offset and no other byte;
a FRAME_OTHER writes none. -/
def Obligations.AcceptedFrames : Prop :=
  (∀ (s : State) (m o : Bytes 4) (d : Bytes 32) (t : Byte) (p : Packet) (magic : Bytes 4) (capacity : BitVec 17)
    (cursor : BitVec 16),
    s.flow = .rxFrame → decodePacket (frameBytes m o 0x57#8 d t) = (p, 0#2) →
    s.cfgMagic = some magic → s.cfgCapacity = some capacity → capacityLegal capacity = true →
    s.image.extent = some capacity → s.image.wf = true → s.cursor = some cursor →
    hasError (validatePacket p magic capacity) = false →
      ∃ img, img.extent = some capacity
        ∧ (∀ a, imageByte a img =
            if p.offset.toNat ≤ a ∧ a < p.offset.toNat + 16 then some (p.data.val.getD (a - p.offset.toNat) 0)
            else imageByte a s.image)
        ∧ exec (.frameWrite m o d t) s = .next { s with
            events := s.events ++ acceptEvents (validatePacket p magic capacity) p.offset cursor,
            image := img, cursor := some ((p.offset >>> 4) + 1#16), flow := .rxAckWrite }) ∧
  (∀ (s : State) (m o : Bytes 4) (action : Byte) (d : Bytes 32) (t : Byte) (p : Packet) (magic : Bytes 4)
    (capacity : BitVec 17) (cursor : BitVec 16),
    s.flow = .rxFrame → action ≠ 0x57#8 → decodePacket (frameBytes m o action d t) = (p, 0#2) →
    s.cfgMagic = some magic → s.cfgCapacity = some capacity → s.cursor = some cursor →
    hasError (validatePacket p magic capacity) = false →
      exec (.frameOther m o action d t) s = .next { s with
        events := s.events ++ acceptEvents (validatePacket p magic capacity) p.offset cursor,
        cursor := some ((p.offset >>> 4) + 1#16), flow := .rxAckWrite }
      ∧ (validatePacket p magic capacity).getLsbD 1 = true)

/-- R128 to R130: a frame that does not decode, or has an error flag, leaves one event and nothing else; one without an error flag
leaves the event of its warnings, if it has any, and goes on to the compare. -/
def Obligations.BadFrameThrownAway : Prop :=
  ∀ (s : State) (f : Bytes 42) (p : Packet) (ds : BitVec 2), s.flow = .rxFrame → decodePacket f = (p, ds) →
    (ds ≠ 0#2 → exec (decodeFrame f) s = .next { s with
        events := s.events ++ [{ code := .rxDecodeFail, a := ds.setWidth 16, b := 0#16 }] })
    ∧ (∀ magic capacity, ds = 0#2 → s.cfgMagic = some magic → s.cfgCapacity = some capacity →
        let vf := validatePacket p magic capacity
        (hasError vf = true → exec (decodeFrame f) s = .next { s with
          events := s.events ++ [{ code := .rxValidate, a := vf.setWidth 16, b := p.offset }] })
        ∧ (hasError vf = false → exec (decodeFrame f) s = acceptPacket p { s with
            events := s.events ++ (if vf = 0#4 then [] else [{ code := .rxValidate, a := vf.setWidth 16, b := p.offset }]) }))

/-- R102, R113, R136: the write phase, of the frame in TXBUF in TX_WRITE and of the acknowledgement in CFG_ACK in RX_ACK_WRITE. -/
def Obligations.WritePhase : Prop :=
  (∀ (s : State) (f : Bytes 42) (rest : List Stimulus), s.flow = .txWrite →
    (s.inbox = .tx (.written 42) :: rest → answersAs (decodeFrame f) (s.txbuf = some f) s
      (.next { afterTx f.val .write (.written 42) rest s with flow := .txEcho }))
    ∧ (∀ n, n < 42 → s.inbox = .tx (.written n) :: rest → answersAs (decodeFrame f) (s.txbuf = some f) s
        (.next (raiseFatal .writeShort (afterTx f.val .write (.written n) rest s))))
    ∧ (s.inbox = .tx .error :: rest → answersAs (decodeFrame f) (s.txbuf = some f) s
        (.next (raiseFatal .writeError (afterTx f.val .write .error rest s))))) ∧
  (∀ (s : State) (bs : List Byte) (rest : List Stimulus), s.flow = .rxAckWrite → bs ≠ [] →
    (s.inbox = .tx (.written bs.length) :: rest → answersAs (.ackFrame bs) (s.cfgAck = some bs) s
      (.next { afterTx bs .write (.written bs.length) rest s with flow := .rxAckEcho }))
    ∧ (∀ n, n < bs.length → s.inbox = .tx (.written n) :: rest → answersAs (.ackFrame bs) (s.cfgAck = some bs) s
        (.next (raiseFatal .writeShort (afterTx bs .write (.written n) rest s))))
    ∧ (s.inbox = .tx .error :: rest → answersAs (.ackFrame bs) (s.cfgAck = some bs) s
        (.next (raiseFatal .writeError (afterTx bs .write .error rest s)))))

/-- R103, R114, R137, and the comparison of R138: the echo phase, of the frame in TXBUF in TX_ECHO and of the acknowledgement in
CFG_ACK in RX_ACK_ECHO: the length is checked before the contents. -/
def Obligations.EchoPhase : Prop :=
  (∀ (s : State) (f : Bytes 42) (rest : List Stimulus), s.flow = .txEcho →
    (s.inbox = .rx .error :: rest → answersAs (decodeFrame f) (s.txbuf = some f) s
      (.next (raiseFatal .echoError (afterRx 42 .echo .error rest s))))
    ∧ (s.inbox = .rx .timeout :: rest → answersAs (decodeFrame f) (s.txbuf = some f) s
        (.next (raiseFatal .echoShort (afterRx 42 .echo .timeout rest s))))
    ∧ (∀ bs : List Byte, 1 ≤ bs.length → bs.length ≤ 42 → s.inbox = .rx (.data bs) :: rest →
        answersAs (decodeFrame f) (s.txbuf = some f) s (.next (
          if bs.length < 42 then raiseFatal .echoShort (afterRx 42 .echo (.data bs) rest s)
          else if bs ≠ f.val then raiseFatal .echoMismatch (afterRx 42 .echo (.data bs) rest s)
          else { afterRx 42 .echo (.data bs) rest s with flow := .txAck })))) ∧
  (∀ (s : State) (ack : List Byte) (rest : List Stimulus) (cursor : BitVec 16) (capacity : BitVec 17),
    s.flow = .rxAckEcho → ack ≠ [] → s.cursor = some cursor → s.cfgCapacity = some capacity →
    (s.inbox = .rx .error :: rest → answersAs (.ackFrame ack) (s.cfgAck = some ack) s
      (.next (raiseFatal .echoError (afterRx ack.length .echo .error rest s))))
    ∧ (s.inbox = .rx .timeout :: rest → answersAs (.ackFrame ack) (s.cfgAck = some ack) s
        (.next (raiseFatal .echoShort (afterRx ack.length .echo .timeout rest s))))
    ∧ (∀ bs : List Byte, 1 ≤ bs.length → bs.length ≤ ack.length → s.inbox = .rx (.data bs) :: rest →
        answersAs (.ackFrame ack) (s.cfgAck = some ack) s (.next (
          if bs.length < ack.length then raiseFatal .echoShort (afterRx ack.length .echo (.data bs) rest s)
          else if bs ≠ ack then raiseFatal .echoMismatch (afterRx ack.length .echo (.data bs) rest s)
          else { afterRx ack.length .echo (.data bs) rest s with
            flow := if capacity.toNat ≤ cursor.toNat * 16 then .doneOk else .rxFrame }))))

/-- R116, R119: the acknowledgement compare in TX_ACK, and the advance of the index either way, which never wraps. -/
def Obligations.AckReadInTxAck : Prop :=
  ∀ (s : State) (bs ack : List Byte) (index : BitVec 16),
    s.flow = .txAck → s.cfgAck = some ack → s.sendIndex = some index →
      exec (.ackFrame bs) s = .next { s with
        events := s.events ++
          (if bs.length = ack.length ∧ ∀ i, i < ack.length → bs.getD i 0 = ack.getD i 0 then []
           else [{ code := .txAckMismatch, a := BitVec.ofNat 16 bs.length, b := index }]),
        sendIndex := some (index + 1#16), flow := .txFetch }
      ∧ (Coherent s → (index + 1#16).toNat = index.toNat + 1)

/-! ### The flows' own steps -/

/-- R115, R118: TX_ACK, every answer to its one read. -/
def Obligations.TxAckStep : Prop :=
  ∀ (s : State) (ack : List Byte) (index : BitVec 16) (rest : List Stimulus),
    s.flow = .txAck → s.cfgAck = some ack → s.cfgAckLen = some (BitVec.ofNat 16 ack.length) → ack.length < 0x10000 →
    s.sendIndex = some index →
      (s.inbox = .rx .error :: rest →
        step s = .next (raiseFatal .ackReadError (afterRx ack.length .ack .error rest s)))
      ∧ (s.inbox = .rx .timeout :: rest → 1 ≤ ack.length →
          step s = .next { afterRx ack.length .ack .timeout rest s with
            events := s.events ++ [{ code := .txAckMismatch, a := 0#16, b := index }],
            sendIndex := some (index + 1#16), flow := .txFetch })
      ∧ (∀ bs : List Byte, 1 ≤ bs.length → bs.length ≤ ack.length → s.inbox = .rx (.data bs) :: rest →
          step s = .next { afterRx ack.length .ack (.data bs) rest s with
            events := s.events ++
              (if bs = ack then [] else [{ code := .txAckMismatch, a := BitVec.ofNat 16 bs.length, b := index }]),
            sendIndex := some (index + 1#16), flow := .txFetch })

/-- R109: TX_FETCH, the source's end and its error. -/
def Obligations.TxFetchEnds : Prop :=
  ∀ (s : State) (rest : List Stimulus), s.flow = .txFetch →
    (s.inbox = .src .eof :: rest → step s = .next { afterSrc .eof rest s with flow := .doneOk })
    ∧ (s.inbox = .src .error :: rest → step s = .next { afterSrc .error rest s with flow := .doneFail })
    ∧ (∀ d, s.inbox = .src (.block d) :: rest → step s = sendBlock d (afterSrc (.block d) rest s))

/-- R110, R111, and R112's corner case: a block is sent exactly when its offset lies below the capacity; past 0x0FFF the contract
fails first, and TXBUF is not written. -/
def Obligations.TxFetchBlock : Prop :=
  ∀ (s : State) (rest : List Stimulus) (d : Bytes 16) (index : BitVec 16) (magic : Bytes 4) (capacity : BitVec 17),
    s.flow = .txFetch → s.inbox = .src (.block d) :: rest → s.sendIndex = some index → s.cfgMagic = some magic →
    s.cfgCapacity = some capacity →
      step s = .next (
        if 0x0FFF < index.toNat then raiseFatal .encodeRange (afterSrc (.block d) rest s)
        else if index.toNat * 16 < capacity.toNat then
          { afterSrc (.block d) rest s with txbuf := some (encodeFrame magic index d), flow := .txWrite }
        else
          raiseFatal .selfcheckInvalid { afterSrc (.block d) rest s with txbuf := some (encodeFrame magic index d) })

/-- R112: the self-check: the decode status first, then the error flags; of a frame that encode made, it fails exactly when the
offset lies at or past the capacity. -/
def Obligations.SelfCheckOutcomes : Prop :=
  (∀ (f : Bytes 42) (magic : Bytes 4) (capacity : BitVec 17) (s : State),
    selfCheck f magic capacity s =
      if (decodePacket f).2 ≠ 0#2 then raiseFatal .selfcheckDecode s
      else if hasError (validatePacket (decodePacket f).1 magic capacity) = true then raiseFatal .selfcheckInvalid s
      else { s with flow := .txWrite }) ∧
  (∀ (magic : Bytes 4) (index : BitVec 16) (d : Bytes 16) (capacity : BitVec 17), index.toNat ≤ 0x0FFF →
    (decodePacket (encodeFrame magic index d)).2 = 0#2
    ∧ (validatePacket (decodePacket (encodeFrame magic index d)).1 magic capacity).extractLsb' 0 2 = 0#2
    ∧ (hasError (validatePacket (decodePacket (encodeFrame magic index d)).1 magic capacity) = true ↔
        capacity.toNat ≤ index.toNat * 16))

/-- R126: a byte that is no terminator. -/
def Obligations.FramingGathersByte : Prop :=
  ∀ (s : State) (rest : List Stimulus) (b : Byte) (count : BitVec 6),
    s.flow = .rxFrame → s.inbox = .rx (.data [b]) :: rest → b ≠ 0x0D#8 → s.rxCount = some count →
      ∃ buf : RxBuffer,
        buf.val = (if count.toNat < 41 then s.rxbuf.val.set count.toNat (some b) else s.rxbuf.val)
        ∧ step s = .next { afterRx 1 .rx (.data [b]) rest s with
            rxbuf := buf, rxCount := some (BitVec.ofNat 6 (min (count.toNat + 1) 42)) }

/-- R127: a terminator after any other number of bytes than 41 throws the frame away; after 41 it completes the frame, which runs. -/
def Obligations.FramingEndsFrame : Prop :=
  ∀ (s : State) (rest : List Stimulus) (count : BitVec 6),
    s.flow = .rxFrame → s.inbox = .rx (.data [0x0D#8]) :: rest → s.rxCount = some count → count.toNat ≤ 42 →
      (count.toNat ≠ 41 → step s = .next { afterRx 1 .rx (.data [0x0D#8]) rest s with
        events := s.events ++ [{ code := .rxShortFrame, a := BitVec.ofNat 16 (count.toNat + 1), b := 0#16 }],
        rxCount := some 0#6 })
      ∧ (∀ f : Bytes 42, count.toNat = 41 → s.rxbuf.val.take 41 = (f.val.take 41).map some → f.val.getD 41 0 = 0x0D#8 →
          step s = exec (decodeFrame f) { afterRx 1 .rx (.data [0x0D#8]) rest s with
            rxbuf := ⟨f.val.map some, by rw [List.length_map, f.property]⟩, rxCount := some 0#6 })

/-- R123, R124: an error is fatal, a timeout is a no-op that is reported; the bytes gathered are kept or not by the parameter. -/
def Obligations.FramingTimeoutAndError : Prop :=
  ∀ (s : State) (rest : List Stimulus), s.flow = .rxFrame →
    (s.inbox = .rx .error :: rest → step s = .next (raiseFatal .rxReadError (afterRx 1 .rx .error rest s)))
    ∧ (∀ count, s.inbox = .rx .timeout :: rest → s.rxCount = some count →
        step s = .next { afterRx 1 .rx .timeout rest s with
          events := s.events ++ [{ code := .rxIdle, a := count.setWidth 16, b := 0#16 }],
          rxCount := if s.params.timeoutClearsFrame = true then some 0#6 else some count })

/-- A step runs the decoded instruction: a host access at once; the frame in TXBUF and the acknowledgement in CFG_ACK when the
environment answers; the bytes an acknowledgement read brings. What the step does around `exec` stands in the state it is given:
the stimulus taken, the read logged. (FramingEndsFrame says the same of a gathered frame.) -/
def Obligations.StepRunsDecodedInstruction : Prop :=
  (∀ (s : State) (a : HostAccess) (rest : List Stimulus) (i : Instr),
    s.inbox = .host a :: rest → decode (.host a) = .ok i → step s = exec i (afterHost rest s)) ∧
  (∀ (s : State) (f : Bytes 42), s.flow = .txWrite ∨ s.flow = .txEcho → answersNext s = true → s.txbuf = some f →
    step s = exec (decodeFrame f) s) ∧
  (∀ (s : State) (a : List Byte), s.flow = .rxAckWrite ∨ s.flow = .rxAckEcho → answersNext s = true → s.cfgAck = some a →
    a ≠ [] → step s = exec (.ackFrame a) s) ∧
  (∀ (s : State) (bs : List Byte) (n : BitVec 16) (rest : List Stimulus),
    s.flow = .txAck → s.cfgAckLen = some n → 1 ≤ bs.length → bs.length ≤ n.toNat → s.inbox = .rx (.data bs) :: rest →
      step s = exec (.ackFrame bs) (afterRx n.toNat .ack (.data bs) rest s))

/-- R23, R175: with nothing from the outside the block waits. (That the model's inbox stands for the outside is the model's choice,
log 3.) -/
def Obligations.BlockWaitsForTheOutside : Prop :=
  ∀ s : State, s.inbox = [] → step s = .next s

/-- R47: what reset leaves, from every state; the event stream is not taken back. R176: nothing is written to the
transport, which the model's record of port accesses shows, and reset leaves the model's two records (log 4). Of what the outside
does the reset alone is taken, since what the transport still holds is outside the block (R177; the inbox is log 3). -/
def Obligations.ResetLeaves : Prop :=
  ∀ (s : State) (rest : List Stimulus), s.inbox = .reset :: rest →
    ∃ t, step s = .next t ∧ t.flow = .idle ∧ t.fatalState = .idle ∧ t.fatalCause = .noCause
      ∧ t.cfgCapacity = none ∧ t.cfgMagic = none ∧ t.cfgAck = none ∧ t.cfgAckLen = none
      ∧ t.pktMagic = none ∧ t.pktOffset = none ∧ t.pktAction = none ∧ t.pktData = none ∧ t.pktBlock = none
      ∧ t.decStatus = none ∧ t.valFlags = none ∧ t.frame = none ∧ t.sendIndex = none ∧ t.cursor = none
      ∧ t.txbuf = none ∧ t.rxCount = none ∧ (∀ x ∈ t.rxbuf.val, x = none)
      ∧ t.image.extent = none ∧ (∀ a, imageByte a t.image = none)
      ∧ t.events = s.events ∧ t.portLog = s.portLog ∧ t.readLog = s.readLog ∧ t.inbox = rest

/-! ### The whole machine -/

/-- The invariant holds at reset. -/
def Obligations.InvariantAtReset : Prop := Coherent State.reset

/-- Every step keeps the invariant. -/
def Obligations.InvariantKept : Prop :=
  ∀ s t : State, Coherent s → step s = .next t → Coherent t

/-- A busy block takes every answer inside the signature of the access it makes (R14): the step answers a next state. -/
def Obligations.AdmittedAnswersAreTaken : Prop :=
  ∀ (s : State) (a : Stimulus) (rest : List Stimulus), Coherent s → s.inbox = a :: rest → answerAdmitted s a = true →
    ∃ t, step s = .next t ∧ t.inbox = rest

/-- In no state at all does a step that takes no host access stop for want of a register's value: beyond the coherent states this is
the model's choice of a free value there (log 10), which no rule of the spec yields. From a coherent state a step that takes no host
access stops on one ground only, an answer outside the signature of the access the block makes (R14); that such an answer is refused
is the model's choice too (log 3). A host access is never refused on a ground that belongs to the flows. The clause on faults only
records that the model has none: `Fault` has no constructor. -/
def Obligations.ReachableStepsNeverFault : Prop :=
  (∀ s : State, (∀ a rest, s.inbox ≠ .host a :: rest) → step s ≠ .refused .noValue) ∧
  ∀ s : State, Coherent s →
    (∀ r, step s ≠ .fault r)
    ∧ ((∀ a rest, s.inbox ≠ .host a :: rest) → ∀ r, step s = .refused r → r = .answerOutsideSignature)
    ∧ (∀ r ∈ [Refusal.answerOutsideSignature, .frameNotExpected, .ackNotExpected, .imageWriteOutside, .undecodable],
        ∀ a rest, s.inbox = .host a :: rest → step s ≠ .refused r)

/-- R163: FATAL has no step, every command is refused in it, and only reset leaves it. -/
def Obligations.OnlyResetLeavesFatal : Prop :=
  ∀ s : State, s.flow = .fatal →
    (∀ t, step s = .next t → (∀ rest, s.inbox ≠ .reset :: rest) →
      t.flow = .fatal ∧ t.fatalState = s.fatalState ∧ t.fatalCause = s.fatalCause)
    ∧ (answersNext s = true → ∀ t, step s ≠ .next t)
    ∧ (∀ c : Byte, exec (decodeCommand c) s = .refused .commandInFatal)
    ∧ (∀ rest, s.inbox = .reset :: rest → ∃ t, step s = .next t ∧ t.flow = .idle)

/-- R160 and R161's "raised in": a step that enters FATAL records the STATE it came from and a cause of that STATE; every other step
but a reset leaves both fields. -/
def Obligations.FatalEntryRecordsItsState : Prop :=
  ∀ s t : State, step s = .next t → s.flow ≠ .fatal → (∀ rest, s.inbox ≠ .reset :: rest) →
    (t.flow ≠ .fatal → t.fatalState = s.fatalState ∧ t.fatalCause = s.fatalCause)
    ∧ (t.flow = .fatal → t.fatalState = s.flow ∧
        match s.flow with
        | .idle => t.fatalCause = .encodeRange
        | .txFetch => t.fatalCause = .encodeRange ∨ t.fatalCause = .selfcheckDecode ∨ t.fatalCause = .selfcheckInvalid
        | .txWrite => t.fatalCause = .writeShort ∨ t.fatalCause = .writeError
        | .txEcho => t.fatalCause = .echoShort ∨ t.fatalCause = .echoError ∨ t.fatalCause = .echoMismatch
        | .txAck => t.fatalCause = .ackReadError
        | .rxFrame => t.fatalCause = .rxReadError
        | .rxAckWrite => t.fatalCause = .writeShort ∨ t.fatalCause = .writeError
        | .rxAckEcho => t.fatalCause = .echoShort ∨ t.fatalCause = .echoError ∨ t.fatalCause = .echoMismatch
        | .doneOk => t.fatalCause = .encodeRange
        | .doneFail => t.fatalCause = .encodeRange
        | .fatal => False)

/-- R30, R181: no step changes the configuration while the block is busy; only reset can. -/
def Obligations.ConfigurationFixedWhileBusy : Prop :=
  ∀ s t : State, isBusy s.flow = true → step s = .next t → (∀ rest, s.inbox ≠ .reset :: rest) →
    t.cfgCapacity = s.cfgCapacity ∧ t.cfgMagic = s.cfgMagic ∧ t.cfgAck = s.cfgAck ∧ t.cfgAckLen = s.cfgAckLen

/-- R52: only CMD_START_RECV, whichever host write spells it, and an accepted write frame write IMAGE (and reset leaves it without a value, R47).
RX_COUNT and RXBUF are as the flow reads them: what they hold, and free where they hold no value (log 10). -/
def Obligations.OnlyReceiveWritesImage : Prop :=
  ∀ s t : State, step s = .next t → t.image ≠ s.image →
    (∃ rest, s.inbox = .reset :: rest ∧ t.image = State.reset.image)
    ∨ (∃ a rest capacity, s.inbox = .host a :: rest ∧ decode (.host a) = .ok .cmdStartRecv
        ∧ s.cfgCapacity = some capacity ∧ isBusy s.flow = false
        ∧ t.image = zeroImage capacity ∧ t.flow = .rxFrame)
    ∨ (∃ (f : Bytes 42) (rest : List Stimulus), s.flow = .rxFrame ∧ s.inbox = .rx (.data [0x0D#8]) :: rest
        ∧ flowCount s = 41#6 ∧ (flowRxbuf s).val.take 41 = f.val.take 41 ∧ (decodePacket f).2 = 0#2
        ∧ (decodePacket f).1.action = 0x57#8 ∧ t.flow = .rxAckWrite
        ∧ memWrite (decodePacket f).1.offset.toNat (decodePacket f).1.data.val s.image = some t.image)

/-- R43: the event stream is only ever appended to, and a reset takes nothing back. -/
def Obligations.EventStreamOnlyGrows : Prop :=
  ∀ s t : State, step s = .next t → ∃ es, t.events = s.events ++ es

/-- R49: what each flow writes. The send flow's steps leave CURSOR, RXBUF, RX_COUNT and IMAGE; the receive flow's leave SEND_INDEX
and TXBUF; neither writes the configuration, the packet registers, the flag registers or FRAME (R24, D39). -/
def Obligations.FlowsKeepToTheirState : Prop :=
  ∀ s t : State, answersNext s = true → step s = .next t →
    (t.cfgCapacity = s.cfgCapacity ∧ t.cfgMagic = s.cfgMagic ∧ t.cfgAck = s.cfgAck ∧ t.cfgAckLen = s.cfgAckLen
      ∧ t.pktMagic = s.pktMagic ∧ t.pktOffset = s.pktOffset ∧ t.pktAction = s.pktAction ∧ t.pktData = s.pktData
      ∧ t.pktBlock = s.pktBlock ∧ t.decStatus = s.decStatus ∧ t.valFlags = s.valFlags ∧ t.frame = s.frame
      ∧ t.readLog = s.readLog ∧ t.params = s.params)
    ∧ (isReceiving s.flow = false →
        t.cursor = s.cursor ∧ t.rxbuf = s.rxbuf ∧ t.rxCount = s.rxCount ∧ t.image = s.image)
    ∧ (isReceiving s.flow = true → t.sendIndex = s.sendIndex ∧ t.txbuf = s.txbuf)

/-- R139: a receive ends in DONE_OK or FATAL and nothing else; bad input, a timeout or a short frame never ends it; DONE_OK only
after an acknowledgement, with the cursor at the capacity (R138), both as the flow reads them: what they hold, and free where they
hold no value (log 10). -/
def Obligations.ReceiveEndsOnlyAtTheCapacity : Prop :=
  ∀ s t : State, isReceiving s.flow = true → answersNext s = true → step s = .next t →
    (isReceiving t.flow = true ∨ t.flow = .doneOk ∨ t.flow = .fatal)
    ∧ (t.flow = .doneOk → s.flow = .rxAckEcho ∧
        (flowCapacity s).toNat ≤ (flowCursor s).toNat * 16)
    ∧ (s.flow = .rxFrame → t.flow = .fatal → ∃ rest, s.inbox = .rx .error :: rest)

/-- The OPEN parameters are the machine's own: no step changes them (R12; that they stand in State is the model's choice, log 2). -/
def Obligations.ParametersNeverChange : Prop :=
  ∀ s t : State, step s = .next t → t.params = s.params
end

