-- ==== Sys2Proof/Laws/Codec.lean ====
section
/-! SUPPORT. The fields of a frame, and the digit functions against their inverses. -/

namespace Sys2Proof

theorem bytes_ext {n : Nat} {a b : Bytes n} (h : a.val = b.val) : a = b := Subtype.ext h

section Fields
variable (m o : Bytes 4) (a : Byte) (d : Bytes 32) (t : Byte)

@[simp] theorem frameMagic_frameBytes : frameMagic (frameBytes m o a d t) = m := by
  apply bytes_ext
  have hm := m.property
  simp [frameMagic, frameBytes, sliceBytes, hm]

@[simp] theorem frameOffsetHex_frameBytes : frameOffsetHex (frameBytes m o a d t) = o := by
  apply bytes_ext
  have hm := m.property
  have ho := o.property
  simp [frameOffsetHex, frameBytes, sliceBytes, hm, ho]

@[simp] theorem frameAction_frameBytes : frameAction (frameBytes m o a d t) = a := by
  have hm := m.property
  have ho := o.property
  simp [frameAction, frameBytes, byteAt, hm, ho]

@[simp] theorem frameDataHex_frameBytes : frameDataHex (frameBytes m o a d t) = d := by
  apply bytes_ext
  have hm := m.property
  have ho := o.property
  have hd := d.property
  have h1 : m.val.drop 9 = [] := List.drop_eq_nil_of_le (by omega)
  have h2 : o.val.drop 5 = [] := List.drop_eq_nil_of_le (by omega)
  simp [frameDataHex, frameBytes, sliceBytes, List.drop_append, hm, ho, hd, h1, h2]

@[simp] theorem frameTerm_frameBytes : frameTerm (frameBytes m o a d t) = t := by
  have hm := m.property
  have ho := o.property
  have hd := d.property
  simp [frameTerm, frameBytes, byteAt, List.getElem_cons, hm, ho, hd]

end Fields

/-- A frame is its five fields. -/
theorem frameBytes_fields (f : Bytes 42) :
    frameBytes (frameMagic f) (frameOffsetHex f) (frameAction f) (frameDataHex f) (frameTerm f) = f := by
  apply bytes_ext
  obtain ⟨l, hl⟩ := f
  apply List.ext_getElem
  · rw [(frameBytes _ _ _ _ _).property, hl]
  · intro i h1 h2
    have h3 : i < 42 := hl ▸ h2
    simp only [frameBytes, frameMagic, frameOffsetHex, frameAction, frameDataHex, frameTerm, sliceBytes, byteAt,
      List.getElem_append, List.getElem_cons, List.length_take, List.length_drop, hl, List.getElem_take, List.getElem_drop]
    split
    · simp
    · split
      · congr 1; omega
      · split
        · congr 1; omega
        · split
          · congr 1; omega
          · rw [dif_pos (by omega)]; congr 1; omega

namespace Machine

theorem hexval_hexdigit (n : BitVec 4) : hexval (hexdigit n) = some n := by
  revert n; decide

theorem hexdigit_of_hexval (c : Byte) (n : BitVec 4) (h : hexval c = some n) : hexdigit n = c := by
  revert c n; decide

/-- The well-formedness check's digits are the decoder's. -/
theorem isHexDigit_eq_isSome_hexval (c : Byte) : isHexDigit c = (hexval c).isSome := by
  revert c; decide

@[simp] theorem hexfieldFrom_cons_hexdigit (acc : Nat) (n : BitVec 4) (rest : List Byte) :
    hexfieldFrom acc (hexdigit n :: rest) = hexfieldFrom (acc * 16 + n.toNat) rest := by
  simp [hexfieldFrom, hexval_hexdigit]

theorem decodeOffset_offsetHexOf (o : BitVec 16) : decodeOffset (offsetHexOf o) = some o := by
  simp only [decodeOffset, offsetHexOf, hexfield, hexfieldFrom_cons_hexdigit]
  simp only [hexfieldFrom, Option.map_some]
  congr 1
  apply BitVec.eq_of_toNat_eq
  simp only [BitVec.toNat_ofNat, BitVec.extractLsb'_toNat, Nat.shiftRight_eq_div_pow]
  omega

theorem hexfield_byteDigits (b : Byte) : hexfield (byteDigits b) = some b.toNat := by
  simp only [byteDigits, hexfield, hexfieldFrom_cons_hexdigit]
  simp only [hexfieldFrom]
  congr 1
  simp only [BitVec.extractLsb'_toNat, Nat.shiftRight_eq_div_pow]
  omega

theorem hexPairs_bytesDigits (d : List Byte) : hexPairs (bytesDigits d) = some d := by
  induction d with
  | nil => rfl
  | cons b rest ih =>
    have hb := hexfield_byteDigits b
    simp only [byteDigits] at hb
    simp [bytesDigits, byteDigits, hexPairs, hb, ih]

theorem decodeData_dataHexOf (d : Bytes 16) : decodeData (dataHexOf d) = some d := by
  simp [decodeData, dataHexOf, hexPairs_bytesDigits, d.property]

theorem length_hexPairs {l ds : List Byte} (h : hexPairs l = some ds) : l.length = 2 * ds.length := by
  fun_induction hexPairs l generalizing ds with
  | case1 => cases h; rfl
  | case2 => cases h
  | case3 hi lo rest v vs hvs hv ih =>
    cases h
    have := ih hvs
    simp only [List.length_cons]; omega
  | case4 => cases h

/-- The data field fails exactly when one of its digits does: the length never fails. -/
theorem decodeData_eq_none (d : Bytes 32) : decodeData d = none ↔ hexPairs d.val = none := by
  unfold decodeData
  split
  · rename_i ds hds
    have := length_hexPairs hds
    rw [d.property] at this
    rw [dif_pos (by omega)]
    simp [hds]
  · simp_all

theorem dstatOf_eq_zero {a b : Bool} : dstatOf a b = 0#2 ↔ a = false ∧ b = false := by
  cases a <;> cases b <;> decide

end Machine

end Sys2Proof
end

