-- ==== Sys2Proof/Laws/Decode.lean ====
section
/-! SUPPORT. What the instruction decoder reads, form by form. -/

namespace Sys2Proof

/-- The bytes an instruction of the wire stands for are read back from its fields. -/
theorem decodeFrame_frameBytes (m o : Bytes 4) (a : Byte) (d : Bytes 32) (t : Byte) :
    decodeFrame (frameBytes m o a d t) = if a = 0x57#8 then .frameWrite m o d t else .frameOther m o a d t := by
  simp [decodeFrame]

/-- Every 42-byte frame is an instruction. -/
theorem decode_frame (f : Bytes 42) : decode (.frame f.val) = .ok (decodeFrame f) := by
  simp [decode, f.property]

theorem decode_ack {bs : List Byte} (h : bs ≠ []) : decode (.ack bs) = .ok (.ackFrame bs) := by
  simp [decode, h]

theorem decode_read (t : HostTarget) : decode (.host (.read t)) = .ok (.rd t) := rfl

theorem decode_write (t : HostTarget) (v : HostValue) : decode (.host (.write t v)) = .ok (decodeWrite t v) := rfl

theorem valueAsByte_toNat (c : Byte) : valueAsByte (.num c.toNat) = some c := by
  simp [valueAsByte, c.isLt]

/-- A command code written to CMD is that command. -/
theorem decode_command (c : Byte) : decode (encodeCommand c) = .ok (decodeCommand c) := by
  simp [encodeCommand, decode, decodeWrite, valueAsByte_toNat]

/-- A write anywhere but CMD is WR. -/
theorem decodeWrite_of_ne {t : HostTarget} (v : HostValue) (h : t ≠ .reg 0x00#8) : decodeWrite t v = .wr t v := by
  simp [decodeWrite, h]

/-- A host access always decodes. -/
theorem decode_host (a : HostAccess) : ∃ i, decode (.host a) = .ok i := by
  cases a with
  | write t v => exact ⟨_, rfl⟩
  | read t => exact ⟨_, rfl⟩

end Sys2Proof
end

