-- ==== Sys2Proof/Laws/Memory.lean ====
section
/-! SUPPORT. The image: reads after writes, and the canonical form kept by every operation. -/

namespace Sys2Proof.Machine

theorem cellsWf_mono {bound lo lo' : Nat} {cells : List Host.Cell} (hle : lo' ≤ lo) (h : cellsWf bound lo cells = true) :
    cellsWf bound lo' cells = true := by
  cases cells with
  | nil => rfl
  | cons c rest =>
    simp only [cellsWf, Bool.and_eq_true, decide_eq_true_eq] at h ⊢
    exact ⟨⟨⟨by omega, h.1.1.2⟩, h.1.2⟩, h.2⟩

/-- Below the lowest listed address every byte reads 0x00. -/
theorem cellsRead_below {bound lo a : Nat} {cells : List Host.Cell} (ha : a < lo) (h : cellsWf bound lo cells = true) :
    cellsRead a cells = 0x00#8 := by
  induction cells generalizing lo with
  | nil => rfl
  | cons c rest ih =>
    simp only [cellsWf, Bool.and_eq_true, decide_eq_true_eq] at h
    rw [cellsRead, if_neg (by omega)]
    exact ih (by omega) h.2

/-- One write, then one read. -/
theorem cellsRead_cellsWrite {bound lo : Nat} {cells : List Host.Cell} (a b : Nat) (v : Byte)
    (h : cellsWf bound lo cells = true) :
    cellsRead b (cellsWrite a v cells) = if b = a then v else cellsRead b cells := by
  induction cells generalizing lo with
  | nil =>
    by_cases hv : v = 0x00#8 <;> by_cases hb : b = a <;> simp [cellsWrite, cellsRead, hv, hb]
  | cons c rest ih =>
    obtain ⟨k, w⟩ := c
    simp only [cellsWf, Bool.and_eq_true, decide_eq_true_eq] at h
    have below : ∀ x, x < k + 1 → cellsRead x rest = 0x00#8 := fun x hx => cellsRead_below hx h.2
    rw [cellsWrite]
    split
    · rename_i hak
      split
      · rename_i hv
        by_cases hb : b = a
        · subst hb; rw [cellsRead, if_neg (by omega), below b (by omega), if_pos rfl, hv]
        · rw [if_neg hb]
      · simp only [cellsRead]
    · split
      · rename_i hak; subst hak
        split
        · rename_i hv
          by_cases hb : b = a
          · subst hb; rw [below b (by omega), if_pos rfl, hv]
          · simp only [cellsRead, if_neg hb]
        · by_cases hb : b = a <;> simp [cellsRead, hb]
      · rename_i h1 h2
        by_cases hb : b = k
        · subst hb; simp only [cellsRead, if_pos]; rw [if_neg (fun h => h2 h.symm)]
        · simp only [cellsRead, if_neg hb]; exact ih h.2

/-- One write keeps the canonical form. -/
theorem cellsWrite_wf {bound lo a : Nat} {v : Byte} {cells : List Host.Cell} (hlo : lo ≤ a) (hb : a < bound)
    (h : cellsWf bound lo cells = true) : cellsWf bound lo (cellsWrite a v cells) = true := by
  induction cells generalizing lo with
  | nil =>
    by_cases hv : v = 0x00#8 <;> simp [cellsWrite, cellsWf, hv, hlo, hb]
  | cons c rest ih =>
    obtain ⟨k, w⟩ := c
    have h' := h
    simp only [cellsWf, Bool.and_eq_true, decide_eq_true_eq, bne_iff_ne] at h
    obtain ⟨⟨⟨hk, hkb⟩, hw⟩, hrest⟩ := h
    rw [cellsWrite]
    split
    · rename_i hak
      split
      · exact h'
      · rename_i hv
        simp only [cellsWf, Bool.and_eq_true, decide_eq_true_eq, bne_iff_ne]
        exact ⟨⟨⟨hlo, hb⟩, hv⟩, ⟨⟨by omega, hkb⟩, hw⟩, hrest⟩
    · split
      · rename_i hak; subst hak
        split
        · exact cellsWf_mono (by omega) hrest
        · rename_i hv
          simp only [cellsWf, Bool.and_eq_true, decide_eq_true_eq, bne_iff_ne]
          exact ⟨⟨⟨hlo, hb⟩, hv⟩, hrest⟩
      · rename_i h1 h2
        simp only [cellsWf, Bool.and_eq_true, decide_eq_true_eq, bne_iff_ne]
        exact ⟨⟨⟨hk, hkb⟩, hw⟩, ih (by omega) hrest⟩

/-- Writing a block keeps the canonical form. -/
theorem cellsWriteBytes_wf {bound : Nat} {vs : List Byte} {a : Nat} {cells : List Host.Cell}
    (hb : a + vs.length ≤ bound) (h : cellsWf bound 0 cells = true) :
    cellsWf bound 0 (cellsWriteBytes a vs cells) = true := by
  induction vs generalizing a cells with
  | nil => exact h
  | cons v vs ih =>
    simp only [List.length_cons] at hb
    exact ih (by omega) (cellsWrite_wf (Nat.zero_le _) (by omega) h)

/-- Writing a block, then reading one byte. -/
theorem cellsRead_cellsWriteBytes {bound : Nat} {vs : List Byte} {a : Nat} {cells : List Host.Cell} (b : Nat)
    (hb : a + vs.length ≤ bound) (h : cellsWf bound 0 cells = true) :
    cellsRead b (cellsWriteBytes a vs cells) =
      if h : a ≤ b ∧ b - a < vs.length then vs[b - a]'h.2 else cellsRead b cells := by
  induction vs generalizing a cells with
  | nil => simp [cellsWriteBytes]
  | cons v vs ih =>
    simp only [List.length_cons] at hb
    rw [cellsWriteBytes, ih (by omega) (cellsWrite_wf (Nat.zero_le _) (by omega) h), cellsRead_cellsWrite a b v h]
    by_cases hab : b = a
    · subst hab
      rw [dif_neg (by omega), if_pos rfl, dif_pos ⟨Nat.le_refl _, by simp⟩]
      simp
    · by_cases hin : a + 1 ≤ b ∧ b - (a + 1) < vs.length
      · rw [dif_pos hin, dif_pos ⟨by omega, by simp; omega⟩]
        have : b - a = (b - (a + 1)) + 1 := by omega
        simp [this]
      · rw [dif_neg hin, if_neg hab, dif_neg]
        simp only [List.length_cons]
        omega

/-- `MemWrite` answers exactly when its `requires` holds (20_memory.md R51). -/
theorem memWrite_eq_some {a : Nat} {vs : List Byte} {m m' : Image} :
    memWrite a vs m = some m' ↔
      ∃ e, m.extent = some e ∧ a + vs.length ≤ e.toNat ∧ m' = { m with cells := cellsWriteBytes a vs m.cells } := by
  unfold memWrite
  cases m.extent with
  | none => simp
  | some e => simp [eq_comm]

theorem memWrite_extent {a : Nat} {vs : List Byte} {m m' : Image} (h : memWrite a vs m = some m') : m'.extent = m.extent := by
  obtain ⟨e, _, _, rfl⟩ := memWrite_eq_some.1 h
  rfl

/-- `MemWrite` keeps the canonical form. -/
theorem memWrite_wf {a : Nat} {vs : List Byte} {m m' : Image} (hm : m.wf = true) (h : memWrite a vs m = some m') :
    m'.wf = true := by
  obtain ⟨e, he, hle, rfl⟩ := memWrite_eq_some.1 h
  simp only [Image.wf, he] at hm ⊢
  exact cellsWriteBytes_wf hle hm

/-- One byte after a `MemWrite`. -/
theorem imageByte_memWrite {a : Nat} {vs : List Byte} {m m' : Image} (b : Nat) (hm : m.wf = true)
    (h : memWrite a vs m = some m') :
    imageByte b m' = if h : a ≤ b ∧ b - a < vs.length then some (vs[b - a]'h.2) else imageByte b m := by
  obtain ⟨e, he, hle, rfl⟩ := memWrite_eq_some.1 h
  simp only [Image.wf, he] at hm
  simp only [imageByte, he]
  by_cases hbe : b < e.toNat
  · rw [if_pos hbe, if_pos hbe, cellsRead_cellsWriteBytes b hle hm]
    split <;> rfl
  · rw [if_neg hbe, if_neg hbe, dif_neg]
    omega

@[simp] theorem zeroImage_wf (c : BitVec 17) : (zeroImage c).wf = true := rfl
@[simp] theorem zeroImage_extent (c : BitVec 17) : (zeroImage c).extent = some c := rfl

/-- A fresh image reads 0x00 at every byte of its extent (20_memory.md R53). -/
theorem imageByte_zeroImage (c : BitVec 17) (a : Nat) :
    imageByte a (zeroImage c) = if a < c.toNat then some 0x00#8 else none := rfl

theorem reset_image_wf : State.reset.image.wf = true := rfl

end Sys2Proof.Machine
end

