-- ==== Sys2Proof/Laws/State.lean ====
section
/-! SUPPORT. What each field of the state is after each named update: one lemma per field per update, all true by unfolding once. -/

namespace Sys2Proof.Machine

@[simp] theorem raiseFatal_flow (c : FatalCause) (s : State) : (raiseFatal c s).flow = .fatal := rfl
@[simp] theorem raiseFatal_fatalState (c : FatalCause) (s : State) : (raiseFatal c s).fatalState = s.flow := rfl
@[simp] theorem raiseFatal_fatalCause (c : FatalCause) (s : State) : (raiseFatal c s).fatalCause = c := rfl
@[simp] theorem raiseFatal_cfgCapacity (c : FatalCause) (s : State) : (raiseFatal c s).cfgCapacity = s.cfgCapacity := rfl
@[simp] theorem raiseFatal_cfgMagic (c : FatalCause) (s : State) : (raiseFatal c s).cfgMagic = s.cfgMagic := rfl
@[simp] theorem raiseFatal_cfgAckLen (c : FatalCause) (s : State) : (raiseFatal c s).cfgAckLen = s.cfgAckLen := rfl
@[simp] theorem raiseFatal_cfgAck (c : FatalCause) (s : State) : (raiseFatal c s).cfgAck = s.cfgAck := rfl
@[simp] theorem raiseFatal_pktMagic (c : FatalCause) (s : State) : (raiseFatal c s).pktMagic = s.pktMagic := rfl
@[simp] theorem raiseFatal_pktOffset (c : FatalCause) (s : State) : (raiseFatal c s).pktOffset = s.pktOffset := rfl
@[simp] theorem raiseFatal_pktAction (c : FatalCause) (s : State) : (raiseFatal c s).pktAction = s.pktAction := rfl
@[simp] theorem raiseFatal_pktData (c : FatalCause) (s : State) : (raiseFatal c s).pktData = s.pktData := rfl
@[simp] theorem raiseFatal_pktBlock (c : FatalCause) (s : State) : (raiseFatal c s).pktBlock = s.pktBlock := rfl
@[simp] theorem raiseFatal_decStatus (c : FatalCause) (s : State) : (raiseFatal c s).decStatus = s.decStatus := rfl
@[simp] theorem raiseFatal_valFlags (c : FatalCause) (s : State) : (raiseFatal c s).valFlags = s.valFlags := rfl
@[simp] theorem raiseFatal_frame (c : FatalCause) (s : State) : (raiseFatal c s).frame = s.frame := rfl
@[simp] theorem raiseFatal_sendIndex (c : FatalCause) (s : State) : (raiseFatal c s).sendIndex = s.sendIndex := rfl
@[simp] theorem raiseFatal_cursor (c : FatalCause) (s : State) : (raiseFatal c s).cursor = s.cursor := rfl
@[simp] theorem raiseFatal_txbuf (c : FatalCause) (s : State) : (raiseFatal c s).txbuf = s.txbuf := rfl
@[simp] theorem raiseFatal_rxbuf (c : FatalCause) (s : State) : (raiseFatal c s).rxbuf = s.rxbuf := rfl
@[simp] theorem raiseFatal_rxCount (c : FatalCause) (s : State) : (raiseFatal c s).rxCount = s.rxCount := rfl
@[simp] theorem raiseFatal_image (c : FatalCause) (s : State) : (raiseFatal c s).image = s.image := rfl
@[simp] theorem raiseFatal_events (c : FatalCause) (s : State) : (raiseFatal c s).events = s.events := rfl
@[simp] theorem raiseFatal_params (c : FatalCause) (s : State) : (raiseFatal c s).params = s.params := rfl
@[simp] theorem raiseFatal_inbox (c : FatalCause) (s : State) : (raiseFatal c s).inbox = s.inbox := rfl
@[simp] theorem raiseFatal_portLog (c : FatalCause) (s : State) : (raiseFatal c s).portLog = s.portLog := rfl
@[simp] theorem raiseFatal_readLog (c : FatalCause) (s : State) : (raiseFatal c s).readLog = s.readLog := rfl

@[simp] theorem emit_flow (c : EventCode) (a b : BitVec 16) (s : State) : (emit c a b s).flow = s.flow := rfl
@[simp] theorem emit_fatalState (c : EventCode) (a b : BitVec 16) (s : State) : (emit c a b s).fatalState = s.fatalState := rfl
@[simp] theorem emit_fatalCause (c : EventCode) (a b : BitVec 16) (s : State) : (emit c a b s).fatalCause = s.fatalCause := rfl
@[simp] theorem emit_cfgCapacity (c : EventCode) (a b : BitVec 16) (s : State) : (emit c a b s).cfgCapacity = s.cfgCapacity := rfl
@[simp] theorem emit_cfgMagic (c : EventCode) (a b : BitVec 16) (s : State) : (emit c a b s).cfgMagic = s.cfgMagic := rfl
@[simp] theorem emit_cfgAckLen (c : EventCode) (a b : BitVec 16) (s : State) : (emit c a b s).cfgAckLen = s.cfgAckLen := rfl
@[simp] theorem emit_cfgAck (c : EventCode) (a b : BitVec 16) (s : State) : (emit c a b s).cfgAck = s.cfgAck := rfl
@[simp] theorem emit_pktMagic (c : EventCode) (a b : BitVec 16) (s : State) : (emit c a b s).pktMagic = s.pktMagic := rfl
@[simp] theorem emit_pktOffset (c : EventCode) (a b : BitVec 16) (s : State) : (emit c a b s).pktOffset = s.pktOffset := rfl
@[simp] theorem emit_pktAction (c : EventCode) (a b : BitVec 16) (s : State) : (emit c a b s).pktAction = s.pktAction := rfl
@[simp] theorem emit_pktData (c : EventCode) (a b : BitVec 16) (s : State) : (emit c a b s).pktData = s.pktData := rfl
@[simp] theorem emit_pktBlock (c : EventCode) (a b : BitVec 16) (s : State) : (emit c a b s).pktBlock = s.pktBlock := rfl
@[simp] theorem emit_decStatus (c : EventCode) (a b : BitVec 16) (s : State) : (emit c a b s).decStatus = s.decStatus := rfl
@[simp] theorem emit_valFlags (c : EventCode) (a b : BitVec 16) (s : State) : (emit c a b s).valFlags = s.valFlags := rfl
@[simp] theorem emit_frame (c : EventCode) (a b : BitVec 16) (s : State) : (emit c a b s).frame = s.frame := rfl
@[simp] theorem emit_sendIndex (c : EventCode) (a b : BitVec 16) (s : State) : (emit c a b s).sendIndex = s.sendIndex := rfl
@[simp] theorem emit_cursor (c : EventCode) (a b : BitVec 16) (s : State) : (emit c a b s).cursor = s.cursor := rfl
@[simp] theorem emit_txbuf (c : EventCode) (a b : BitVec 16) (s : State) : (emit c a b s).txbuf = s.txbuf := rfl
@[simp] theorem emit_rxbuf (c : EventCode) (a b : BitVec 16) (s : State) : (emit c a b s).rxbuf = s.rxbuf := rfl
@[simp] theorem emit_rxCount (c : EventCode) (a b : BitVec 16) (s : State) : (emit c a b s).rxCount = s.rxCount := rfl
@[simp] theorem emit_image (c : EventCode) (a b : BitVec 16) (s : State) : (emit c a b s).image = s.image := rfl
@[simp] theorem emit_events (c : EventCode) (a b : BitVec 16) (s : State) : (emit c a b s).events = s.events ++ [{ code := c, a := a, b := b }] := rfl
@[simp] theorem emit_params (c : EventCode) (a b : BitVec 16) (s : State) : (emit c a b s).params = s.params := rfl
@[simp] theorem emit_inbox (c : EventCode) (a b : BitVec 16) (s : State) : (emit c a b s).inbox = s.inbox := rfl
@[simp] theorem emit_portLog (c : EventCode) (a b : BitVec 16) (s : State) : (emit c a b s).portLog = s.portLog := rfl
@[simp] theorem emit_readLog (c : EventCode) (a b : BitVec 16) (s : State) : (emit c a b s).readLog = s.readLog := rfl

@[simp] theorem hostReply_flow (t : HostTarget) (v : HostValue) (s : State) : (hostReply t v s).flow = s.flow := rfl
@[simp] theorem hostReply_fatalState (t : HostTarget) (v : HostValue) (s : State) : (hostReply t v s).fatalState = s.fatalState := rfl
@[simp] theorem hostReply_fatalCause (t : HostTarget) (v : HostValue) (s : State) : (hostReply t v s).fatalCause = s.fatalCause := rfl
@[simp] theorem hostReply_cfgCapacity (t : HostTarget) (v : HostValue) (s : State) : (hostReply t v s).cfgCapacity = s.cfgCapacity := rfl
@[simp] theorem hostReply_cfgMagic (t : HostTarget) (v : HostValue) (s : State) : (hostReply t v s).cfgMagic = s.cfgMagic := rfl
@[simp] theorem hostReply_cfgAckLen (t : HostTarget) (v : HostValue) (s : State) : (hostReply t v s).cfgAckLen = s.cfgAckLen := rfl
@[simp] theorem hostReply_cfgAck (t : HostTarget) (v : HostValue) (s : State) : (hostReply t v s).cfgAck = s.cfgAck := rfl
@[simp] theorem hostReply_pktMagic (t : HostTarget) (v : HostValue) (s : State) : (hostReply t v s).pktMagic = s.pktMagic := rfl
@[simp] theorem hostReply_pktOffset (t : HostTarget) (v : HostValue) (s : State) : (hostReply t v s).pktOffset = s.pktOffset := rfl
@[simp] theorem hostReply_pktAction (t : HostTarget) (v : HostValue) (s : State) : (hostReply t v s).pktAction = s.pktAction := rfl
@[simp] theorem hostReply_pktData (t : HostTarget) (v : HostValue) (s : State) : (hostReply t v s).pktData = s.pktData := rfl
@[simp] theorem hostReply_pktBlock (t : HostTarget) (v : HostValue) (s : State) : (hostReply t v s).pktBlock = s.pktBlock := rfl
@[simp] theorem hostReply_decStatus (t : HostTarget) (v : HostValue) (s : State) : (hostReply t v s).decStatus = s.decStatus := rfl
@[simp] theorem hostReply_valFlags (t : HostTarget) (v : HostValue) (s : State) : (hostReply t v s).valFlags = s.valFlags := rfl
@[simp] theorem hostReply_frame (t : HostTarget) (v : HostValue) (s : State) : (hostReply t v s).frame = s.frame := rfl
@[simp] theorem hostReply_sendIndex (t : HostTarget) (v : HostValue) (s : State) : (hostReply t v s).sendIndex = s.sendIndex := rfl
@[simp] theorem hostReply_cursor (t : HostTarget) (v : HostValue) (s : State) : (hostReply t v s).cursor = s.cursor := rfl
@[simp] theorem hostReply_txbuf (t : HostTarget) (v : HostValue) (s : State) : (hostReply t v s).txbuf = s.txbuf := rfl
@[simp] theorem hostReply_rxbuf (t : HostTarget) (v : HostValue) (s : State) : (hostReply t v s).rxbuf = s.rxbuf := rfl
@[simp] theorem hostReply_rxCount (t : HostTarget) (v : HostValue) (s : State) : (hostReply t v s).rxCount = s.rxCount := rfl
@[simp] theorem hostReply_image (t : HostTarget) (v : HostValue) (s : State) : (hostReply t v s).image = s.image := rfl
@[simp] theorem hostReply_events (t : HostTarget) (v : HostValue) (s : State) : (hostReply t v s).events = s.events := rfl
@[simp] theorem hostReply_params (t : HostTarget) (v : HostValue) (s : State) : (hostReply t v s).params = s.params := rfl
@[simp] theorem hostReply_inbox (t : HostTarget) (v : HostValue) (s : State) : (hostReply t v s).inbox = s.inbox := rfl
@[simp] theorem hostReply_portLog (t : HostTarget) (v : HostValue) (s : State) : (hostReply t v s).portLog = s.portLog := rfl
@[simp] theorem hostReply_readLog (t : HostTarget) (v : HostValue) (s : State) : (hostReply t v s).readLog = s.readLog ++ [{ target := t, value := v }] := rfl

@[simp] theorem resetBlock_flow (s : State) : (resetBlock s).flow = State.reset.flow := rfl
@[simp] theorem resetBlock_fatalState (s : State) : (resetBlock s).fatalState = State.reset.fatalState := rfl
@[simp] theorem resetBlock_fatalCause (s : State) : (resetBlock s).fatalCause = State.reset.fatalCause := rfl
@[simp] theorem resetBlock_cfgCapacity (s : State) : (resetBlock s).cfgCapacity = State.reset.cfgCapacity := rfl
@[simp] theorem resetBlock_cfgMagic (s : State) : (resetBlock s).cfgMagic = State.reset.cfgMagic := rfl
@[simp] theorem resetBlock_cfgAckLen (s : State) : (resetBlock s).cfgAckLen = State.reset.cfgAckLen := rfl
@[simp] theorem resetBlock_cfgAck (s : State) : (resetBlock s).cfgAck = State.reset.cfgAck := rfl
@[simp] theorem resetBlock_pktMagic (s : State) : (resetBlock s).pktMagic = State.reset.pktMagic := rfl
@[simp] theorem resetBlock_pktOffset (s : State) : (resetBlock s).pktOffset = State.reset.pktOffset := rfl
@[simp] theorem resetBlock_pktAction (s : State) : (resetBlock s).pktAction = State.reset.pktAction := rfl
@[simp] theorem resetBlock_pktData (s : State) : (resetBlock s).pktData = State.reset.pktData := rfl
@[simp] theorem resetBlock_pktBlock (s : State) : (resetBlock s).pktBlock = State.reset.pktBlock := rfl
@[simp] theorem resetBlock_decStatus (s : State) : (resetBlock s).decStatus = State.reset.decStatus := rfl
@[simp] theorem resetBlock_valFlags (s : State) : (resetBlock s).valFlags = State.reset.valFlags := rfl
@[simp] theorem resetBlock_frame (s : State) : (resetBlock s).frame = State.reset.frame := rfl
@[simp] theorem resetBlock_sendIndex (s : State) : (resetBlock s).sendIndex = State.reset.sendIndex := rfl
@[simp] theorem resetBlock_cursor (s : State) : (resetBlock s).cursor = State.reset.cursor := rfl
@[simp] theorem resetBlock_txbuf (s : State) : (resetBlock s).txbuf = State.reset.txbuf := rfl
@[simp] theorem resetBlock_rxbuf (s : State) : (resetBlock s).rxbuf = State.reset.rxbuf := rfl
@[simp] theorem resetBlock_rxCount (s : State) : (resetBlock s).rxCount = State.reset.rxCount := rfl
@[simp] theorem resetBlock_image (s : State) : (resetBlock s).image = State.reset.image := rfl
@[simp] theorem resetBlock_events (s : State) : (resetBlock s).events = s.events := rfl
@[simp] theorem resetBlock_params (s : State) : (resetBlock s).params = s.params := rfl
@[simp] theorem resetBlock_inbox (s : State) : (resetBlock s).inbox = s.inbox := rfl
@[simp] theorem resetBlock_portLog (s : State) : (resetBlock s).portLog = s.portLog := rfl
@[simp] theorem resetBlock_readLog (s : State) : (resetBlock s).readLog = s.readLog := rfl

end Sys2Proof.Machine
end

