-- ==== Sys2Proof/Laws/Ops.lean ====
section
/-! SUPPORT. One lemma per shared operation: everything it can answer. -/

namespace Sys2Proof.Machine

@[simp] theorem withOperand_some {α : Type} (a : α) (k : α → Out) : withOperand (some a) k = k a := rfl
@[simp] theorem withLegal_some {α : Type} (a : α) (k : α → Out) : withLegal (some a) k = k a := rfl
@[simp] theorem withOperand_none {α : Type} (k : α → Out) : withOperand none k = .refused .noValue := rfl
@[simp] theorem withLegal_none {α : Type} (k : α → Out) : withLegal none k = .refused .illegalValue := rfl

theorem withOperand_next {α : Type} {o : Option α} {k : α → Out} {t : State} (h : withOperand o k = .next t) :
    ∃ a, o = some a ∧ k a = .next t := by
  cases o with
  | none => cases h
  | some a => exact ⟨a, rfl, h⟩

theorem withLegal_next {α : Type} {o : Option α} {k : α → Out} {t : State} (h : withLegal o k = .next t) :
    ∃ a, o = some a ∧ k a = .next t := by
  cases o with
  | none => cases h
  | some a => exact ⟨a, rfl, h⟩

theorem configGate_next {s t : State} {k : Out} (h : configGate s k = .next t) : isBusy s.flow = false ∧ k = .next t := by
  unfold configGate at h
  split at h
  · cases h
  · exact ⟨Bool.eq_false_iff.2 ‹_›, h⟩

theorem commandGate_next {s t : State} {k : Out} (h : commandGate s k = .next t) :
    isBusy s.flow = false ∧ s.flow ≠ .fatal ∧ k = .next t := by
  unfold commandGate at h
  split at h
  · cases h
  · split at h
    · cases h
    · exact ⟨by simpa using ‹¬isBusy _ = true›, ‹_›, h⟩

theorem commandGate_open {s : State} (k : Out) (hb : isBusy s.flow = false) (hf : s.flow ≠ .fatal) : commandGate s k = k := by
  simp [commandGate, hb, hf]

theorem withConfig_next {s t : State} {k : BitVec 17 → Out} (h : withConfig s k = .next t) :
    ∃ c m a, s.cfgCapacity = some c ∧ s.cfgMagic = some m ∧ s.cfgAck = some a ∧ k c = .next t := by
  obtain ⟨c, hc, h⟩ := withOperand_next h
  obtain ⟨m, hm, h⟩ := withOperand_next h
  obtain ⟨a, ha, h⟩ := withOperand_next h
  exact ⟨c, m, a, hc, hm, ha, h⟩

/-! A flow reads the value a register holds. -/

section FlowReads
variable {s : State}

theorem flowCapacity_of_some {c : BitVec 17} (h : s.cfgCapacity = some c) : flowCapacity s = c := by rw [flowCapacity, h]; rfl
theorem flowMagic_of_some {m : Bytes 4} (h : s.cfgMagic = some m) : flowMagic s = m := by rw [flowMagic, h]; rfl
theorem flowAck_of_some {a : List Byte} (h : s.cfgAck = some a) : flowAck s = a := by rw [flowAck, h]; rfl
theorem flowAckLen_of_some {n : BitVec 16} (h : s.cfgAckLen = some n) : flowAckLen s = n := by rw [flowAckLen, h]; rfl
theorem flowIndex_of_some {i : BitVec 16} (h : s.sendIndex = some i) : flowIndex s = i := by rw [flowIndex, h]; rfl
theorem flowCursor_of_some {c : BitVec 16} (h : s.cursor = some c) : flowCursor s = c := by rw [flowCursor, h]; rfl
theorem flowTxbuf_of_some {f : Bytes 42} (h : s.txbuf = some f) : flowTxbuf s = f := by rw [flowTxbuf, h]; rfl
theorem flowCount_of_some {n : BitVec 6} (h : s.rxCount = some n) : flowCount s = n := by rw [flowCount, h]; rfl
theorem flowRxbuf_of_map {f : Bytes 42} (h : s.rxbuf.val = f.val.map some) : flowRxbuf s = f := by
  apply Subtype.ext
  apply List.ext_getElem (by simp [flowRxbuf, s.rxbuf.property, f.property])
  simp [flowRxbuf, h]

/-- The capacity a flow reads is a legal one, held or free (10_state.md R27). -/
theorem flowCapacity_legal (h : s.cfgCapacity.all capacityLegal = true) : capacityLegal (flowCapacity s) = true := by
  unfold flowCapacity
  cases hc : s.cfgCapacity with
  | some c => simpa [hc] using h
  | none =>
    generalize Config.unheldNumber .cfgCapacity = n
    have hlt : 16 * (n % 0x1000 + 1) < 2 ^ 17 := by omega
    simp only [Option.getD_none, capacityLegal, BitVec.toNat_ofNat, Nat.mod_eq_of_lt hlt, Bool.and_eq_true, decide_eq_true_eq]
    omega

end FlowReads

section Ports
variable {s t : State} {rest : List Stimulus}

/-- `TxWrite` answers from the head of the inbox, and logs the access. -/
theorem txWrite_answered {bytes : List Byte} {cls : TimeoutClass} {a : TxAnswer} :
    txWrite bytes cls s = .answered a t ↔
      ∃ rest, s.inbox = .tx a :: rest ∧ txAdmits bytes.length a = true
        ∧ t = { s with inbox := rest, portLog := s.portLog ++ [.txWrite bytes cls a] } := by
  unfold txWrite
  split <;> simp_all
  split <;> grind

theorem rxRead_answered {max : Nat} {cls : TimeoutClass} {a : RxAnswer} :
    rxRead max cls s = .answered a t ↔
      ∃ rest, s.inbox = .rx a :: rest ∧ rxAdmits max a = true
        ∧ t = { s with inbox := rest, portLog := s.portLog ++ [.rxRead max cls a] } := by
  unfold rxRead
  split <;> simp_all
  split <;> grind

theorem srcRead_answered {a : SrcAnswer} :
    srcRead s = .answered a t ↔
      ∃ rest, s.inbox = .src a :: rest ∧ t = { s with inbox := rest, portLog := s.portLog ++ [.srcRead a] } := by
  unfold srcRead
  split <;> simp_all
  grind

/-- A `waiting` access has no answer at the head of the inbox. -/
theorem txWrite_waiting {bytes : List Byte} {cls : TimeoutClass} (h : txWrite bytes cls s = .waiting) :
    (∃ a rest, s.inbox = .host a :: rest) ∨ (∃ rest, s.inbox = .reset :: rest) ∨ s.inbox = [] := by
  unfold txWrite at h
  split at h <;> simp_all
  split at h <;> cases h

theorem rxRead_waiting {max : Nat} {cls : TimeoutClass} (h : rxRead max cls s = .waiting) :
    (∃ a rest, s.inbox = .host a :: rest) ∨ (∃ rest, s.inbox = .reset :: rest) ∨ s.inbox = [] := by
  unfold rxRead at h
  split at h <;> simp_all
  split at h <;> cases h

/-- Everything the adapter's write phase can go on to (R102). -/
theorem adapterWrite_next {bytes : List Byte} {after : FlowState} (h : adapterWrite bytes after s = .next t) :
    t = s ∨ ∃ a rest, s.inbox = .tx a :: rest ∧ txAdmits bytes.length a = true ∧
      let u : State := { s with inbox := rest, portLog := s.portLog ++ [.txWrite bytes .write a] }
      t = { u with flow := after } ∧ a = .written bytes.length
      ∨ t = raiseFatal .writeShort u ∧ (∃ n, a = .written n ∧ n ≠ bytes.length)
      ∨ t = raiseFatal .writeError u ∧ a = .error := by
  unfold adapterWrite at h
  split at h
  · exact .inl (by cases h; rfl)
  · cases h
  · rename_i n u hu
    obtain ⟨rest, hin, ha, rfl⟩ := txWrite_answered.1 hu
    refine .inr ⟨_, rest, hin, ha, ?_⟩
    split at h
    · rename_i hn; cases h; subst hn; exact .inl ⟨rfl, rfl⟩
    · rename_i hn; cases h; exact .inr (.inl ⟨rfl, n, rfl, hn⟩)
  · rename_i u hu
    obtain ⟨rest, hin, ha, rfl⟩ := txWrite_answered.1 hu
    cases h
    exact .inr ⟨_, rest, hin, ha, .inr (.inr ⟨rfl, rfl⟩)⟩

/-- Everything the adapter's echo phase can go on to (R103). -/
theorem adapterEcho_next {bytes : List Byte} {onOk : State → Out} (h : adapterEcho bytes onOk s = .next t) :
    t = s ∨ ∃ a rest, s.inbox = .rx a :: rest ∧ rxAdmits bytes.length a = true ∧
      let u : State := { s with inbox := rest, portLog := s.portLog ++ [.rxRead bytes.length .echo a] }
      onOk u = .next t ∧ a = .data bytes
      ∨ t = raiseFatal .echoError u ∧ a = .error
      ∨ t = raiseFatal .echoShort u ∧ (a = .timeout ∨ ∃ bs, a = .data bs ∧ bs.length < bytes.length)
      ∨ t = raiseFatal .echoMismatch u ∧ (∃ bs, a = .data bs ∧ bs.length = bytes.length ∧ bs ≠ bytes) := by
  unfold adapterEcho at h
  split at h
  · exact .inl (by cases h; rfl)
  · cases h
  · rename_i u hu
    obtain ⟨rest, hin, ha, rfl⟩ := rxRead_answered.1 hu
    cases h
    exact .inr ⟨_, rest, hin, ha, .inr (.inl ⟨rfl, rfl⟩)⟩
  · rename_i u hu
    obtain ⟨rest, hin, ha, rfl⟩ := rxRead_answered.1 hu
    cases h
    exact .inr ⟨_, rest, hin, ha, .inr (.inr (.inl ⟨rfl, .inl rfl⟩))⟩
  · rename_i bs u hu
    obtain ⟨rest, hin, ha, rfl⟩ := rxRead_answered.1 hu
    refine .inr ⟨_, rest, hin, ha, ?_⟩
    have hle : bs.length ≤ bytes.length := by
      simp only [rxAdmits, Bool.and_eq_true, decide_eq_true_eq] at ha; exact ha.2
    split at h
    · rename_i hlt; cases h; exact .inr (.inr (.inl ⟨rfl, .inr ⟨bs, rfl, hlt⟩⟩))
    · split at h
      · rename_i heq; subst heq; exact .inl ⟨h, rfl⟩
      · rename_i hlt hne; cases h; exact .inr (.inr (.inr ⟨rfl, bs, rfl, by omega, hne⟩))

end Ports

end Sys2Proof.Machine
end

