-- ==== Sys2Proof/Laws/Frames.lean ====
section
/-! SUPPORT. What the error class of the flags says of a packet, and the events of an accepted frame as one append. -/

namespace Sys2Proof.Machine

theorem dstatOf_getLsbD_zero (a b : Bool) : (dstatOf a b).getLsbD 0 = a := by revert a b; decide
theorem dstatOf_getLsbD_one (a b : Bool) : (dstatOf a b).getLsbD 1 = b := by revert a b; decide

/-- Four flags laid out as a word, and its error class. -/
theorem hasError_flags (r m a g : Bool) :
    hasError (BitVec.ofBool r ++ (BitVec.ofBool m ++ (BitVec.ofBool a ++ BitVec.ofBool g))) = (r || m) := by
  revert r m a g; decide

/-- A packet is usable exactly when its offset is a multiple of 16 below the capacity (R96, R97, R98). -/
theorem hasError_validatePacket {p : Packet} {magic : Bytes 4} {capacity : BitVec 17} :
    hasError (validatePacket p magic capacity) = false ↔ p.offset.toNat % 16 = 0 ∧ p.offset.toNat < capacity.toNat := by
  have hlow : (p.offset.extractLsb' 0 4).toNat = p.offset.toNat % 16 := by simp
  rw [validatePacket, validate, hasError_flags, Bool.or_eq_false_iff, ← hlow]
  simp only [offsetRange, offsetMisaligned, decide_eq_false_iff_not, not_not, not_le]
  exact ⟨fun h => ⟨congrArg BitVec.toNat h.2, h.1⟩, fun h => ⟨h.2, BitVec.eq_of_toNat_eq h.1⟩⟩

/-- Bit 1 of the flags, whatever the others (R95). -/
theorem validatePacket_getLsbD_one (p : Packet) (magic : Bytes 4) (capacity : BitVec 17) :
    (validatePacket p magic capacity).getLsbD 1 = actionUnknown p.action := by
  have hbits : ∀ r m a g : Bool,
      (BitVec.ofBool r ++ (BitVec.ofBool m ++ (BitVec.ofBool a ++ BitVec.ofBool g))).getLsbD 1 = a := by decide
  exact hbits _ _ _ _

/-! Where a frame or an acknowledgement stands decides which of its parts it plays. -/

section Parts
variable {s : State}

theorem runFrame_rxFrame (f : Bytes 42) (h : s.flow = .rxFrame) : runFrame f s = processFrame f s := by simp only [runFrame, h]
theorem runFrame_txWrite (f : Bytes 42) (h : s.flow = .txWrite) : runFrame f s = adapterWrite f.val .txEcho s := by
  simp only [runFrame, h]
theorem runFrame_txEcho (f : Bytes 42) (h : s.flow = .txEcho) :
    runFrame f s = adapterEcho f.val (fun t => .next { t with flow := .txAck }) s := by simp only [runFrame, h]
theorem execAckFrame_txAck (bs : List Byte) (h : s.flow = .txAck) : execAckFrame bs s = ackReceived bs s := by
  simp only [execAckFrame, h]
theorem execAckFrame_rxAckWrite (bs : List Byte) (h : s.flow = .rxAckWrite) :
    execAckFrame bs s = adapterWrite bs .rxAckEcho s := by simp only [execAckFrame, h]
theorem execAckFrame_rxAckEcho (bs : List Byte) (h : s.flow = .rxAckEcho) :
    execAckFrame bs s = adapterEcho bs receiveEnd s := by simp only [execAckFrame, h]

end Parts

/-- The flags' event, as an append. -/
theorem emitFlags_eq (vf : BitVec 4) (offset : BitVec 16) (s : State) :
    emitFlags vf offset s = { s with
      events := s.events ++ if vf = 0#4 then [] else [{ code := .rxValidate, a := vf.setWidth 16, b := offset }] } := by
  unfold emitFlags
  by_cases h : vf = 0#4
  · simp only [h, ne_eq, not_true, if_false, if_true, List.append_nil]
  · simp only [h, ne_eq, not_false_iff, if_true, if_false]; rfl

/-- The jump's event, as an append. -/
theorem emitJump_eq (cursor ni : BitVec 16) (s : State) :
    emitJump cursor ni s = { s with
      events := s.events ++ if cursor < ni then [{ code := .rxGap, a := cursor, b := ni }]
        else if ni < cursor then [{ code := .rxRewind, a := cursor, b := ni }] else [] } := by
  unfold emitJump
  by_cases h : cursor < ni
  · simp only [h, if_true]; rfl
  · by_cases h' : ni < cursor
    · simp only [h, h', if_true, if_false]; rfl
    · simp only [h, h', if_false, List.append_nil]

/-- Both, as the append that `acceptEvents` names. -/
theorem emitJump_emitFlags (vf : BitVec 4) (offset cursor : BitVec 16) (s : State) :
    emitJump cursor (offset >>> 4) (emitFlags vf offset s) =
      { s with events := s.events ++ acceptEvents vf offset cursor } := by
  rw [emitFlags_eq, emitJump_eq, acceptEvents, ← List.append_assoc]

/-- An aligned block below a legal capacity lies inside it. -/
theorem block_inside {offset : BitVec 16} {capacity : BitVec 17} (hc : capacityLegal capacity = true)
    (ha : offset.toNat % 16 = 0) (hlt : offset.toNat < capacity.toNat) : offset.toNat + 16 ≤ capacity.toNat := by
  simp only [capacityLegal, Bool.and_eq_true, decide_eq_true_eq] at hc
  omega

end Sys2Proof.Machine
end

