-- ==== Sys2Proof/Laws/Operands.lean ====
section
/-! SUPPORT. What each operand form of the host port takes and refuses, and the two readings of a legal capacity. -/

namespace Sys2Proof.Machine

theorem valueAsBits_of_lt {w k : Nat} (h : k < 2 ^ w) : valueAsBits w (.num k) = some (BitVec.ofNat w k) := if_pos h
theorem valueAsBits_of_le {w k : Nat} (h : 2 ^ w ≤ k) : valueAsBits w (.num k) = none := if_neg (Nat.not_lt.2 h)
@[simp] theorem valueAsBits_bytes (w : Nat) (bs : List Byte) : valueAsBits w (.bytes bs) = none := rfl

theorem valueAsBytes_of_length {n : Nat} {bs : List Byte} (h : bs.length = n) : valueAsBytes n (.bytes bs) = some ⟨bs, h⟩ :=
  dif_pos h
theorem valueAsBytes_of_ne {n : Nat} {bs : List Byte} (h : bs.length ≠ n) : valueAsBytes n (.bytes bs) = none := dif_neg h
@[simp] theorem valueAsBytes_num (n k : Nat) : valueAsBytes n (.num k) = none := rfl
@[simp] theorem valueAsBytes_val {n : Nat} (b : Bytes n) : valueAsBytes n (.bytes b.val) = some b := dif_pos b.property

@[simp] theorem valueAsAck_num (m k : Nat) : valueAsAck m (.num k) = none := rfl
theorem valueAsAck_eq_some {m : Nat} {v : HostValue} {a : List Byte} :
    valueAsAck m v = some a ↔ v = .bytes a ∧ 1 ≤ a.length ∧ a.length ≤ m ∧ a.length < 0x10000 := by
  cases v with
  | num k => simp
  | bytes bs =>
    simp only [valueAsAck, HostValue.bytes.injEq]
    by_cases h : 1 ≤ bs.length ∧ bs.length ≤ m ∧ bs.length < 0x10000
    · rw [if_pos h]
      refine ⟨?_, fun e => congrArg some e.1⟩
      intro e
      cases e
      exact ⟨rfl, h⟩
    · rw [if_neg h]
      refine ⟨fun e => ?_, fun e => absurd (e.1 ▸ e.2) h⟩
      cases e

theorem valueAsByte_of_lt {k : Nat} (h : k < 256) : valueAsByte (.num k) = some (BitVec.ofNat 8 k) := if_pos h
theorem valueAsByte_of_le {k : Nat} (h : 256 ≤ k) : valueAsByte (.num k) = none := if_neg (Nat.not_lt.2 h)
@[simp] theorem valueAsByte_singleton (b : Byte) : valueAsByte (.bytes [b]) = some b := rfl
theorem valueAsByte_of_ne {bs : List Byte} (h : bs.length ≠ 1) : valueAsByte (.bytes bs) = none := by
  match bs, h with
  | [], _ => rfl
  | [_], h => exact absurd rfl h
  | _ :: _ :: _, _ => rfl

theorem capacityLegal_iff {c : BitVec 17} : capacityLegal c = true ↔ c.toNat % 16 = 0 ∧ 16 ≤ c.toNat ∧ c.toNat ≤ 0x10000 := by
  simp [capacityLegal, and_assoc]

/-- A written number is a legal capacity exactly when R27 says so; a number of more than 17 bits never reaches the check. -/
theorem capacityLegal_ofNat {k : Nat} (h : k < 2 ^ 17) :
    capacityLegal (BitVec.ofNat 17 k) = true ↔ k % 16 = 0 ∧ 16 ≤ k ∧ k ≤ 0x10000 := by
  rw [capacityLegal_iff, BitVec.toNat_ofNat, Nat.mod_eq_of_lt h]

end Sys2Proof.Machine
end

