-- ==== Sys2Proof/Laws/Step.lean ====
section
/-! SUPPORT. What a fetched instruction runs as, form by form, and everything a step can begin with. -/

namespace Sys2Proof.Machine

/-- A command runs as its code issues it. -/
theorem exec_decodeCommand (c : Byte) (s : State) : exec (decodeCommand c) s = issueCommand c s := by
  unfold decodeCommand issueCommand
  split
  · rfl
  split
  · rfl
  split
  · rfl
  split
  · rfl
  split
  · rfl
  rfl

/-- A wire frame runs as its 42 bytes, whichever of the two instructions it is. -/
theorem exec_decodeFrame (f : Bytes 42) (s : State) : exec (decodeFrame f) s = runFrame f s := by
  unfold decodeFrame
  split
  · rename_i h
    have hf := frameBytes_fields f
    rw [h] at hf
    simp only [exec, execFrameWrite, hf]
  · simp only [exec, execFrameOther, frameBytes_fields]

theorem fetchDecoded_frame (f : Bytes 42) (s : State) : fetchDecoded (.frame f.val) s = .run (decodeFrame f) s := by
  simp [fetchDecoded, decode_frame]

theorem fetchDecoded_ack {bs : List Byte} (h : bs ≠ []) (s : State) : fetchDecoded (.ack bs) s = .run (.ackFrame bs) s := by
  simp [fetchDecoded, decode_ack h]

/-- A reset is taken at once (70_reset_and_hazards.md R176). -/
theorem step_reset {s : State} {rest : List Stimulus} (h : s.inbox = .reset :: rest) :
    step s = .next (resetBlock { s with inbox := rest }) := by
  simp [step, fetch, h, runFetched]

/-- An answer at the head of the inbox goes to the active flow. -/
theorem step_flow {s : State} (h : (∃ a rest, s.inbox = .tx a :: rest) ∨ (∃ a rest, s.inbox = .rx a :: rest)
    ∨ ∃ a rest, s.inbox = .src a :: rest) :
    step s = runFetched (fetchFlow s) := by
  unfold step fetch
  rcases h with ⟨a, rest, h⟩ | ⟨a, rest, h⟩ | ⟨a, rest, h⟩ <;> rw [h]

@[simp] theorem runFetched_run (i : Instr) (s : State) : runFetched (.run i s) = exec i s := rfl
@[simp] theorem runFetched_finished (o : Out) : runFetched (.finished o) = o := rfl

end Sys2Proof.Machine
end

