-- ==== Sys2Proof/Laws/Effects.lean ====
section
/-! SUPPORT. Everything a step can do, said once: `Effect s t` lists the next states of `s`, and `step_effect` says that a step
reaches no other. A claim about every step is a case analysis of `Effect`. -/

namespace Sys2Proof.Machine

/-- The outcomes of the write phase (41_echo_adapter.md R102) of `bytes`, after the answer `a`, from the state `u` that the access
leaves. -/
inductive WriteOutcome (bytes : List Byte) (after : FlowState) (u : State) : TxAnswer → State → Prop where
  | all : WriteOutcome bytes after u (.written bytes.length) { u with flow := after }
  | short (n : Nat) (h : n < bytes.length) : WriteOutcome bytes after u (.written n) (raiseFatal .writeShort u)
  | error : WriteOutcome bytes after u .error (raiseFatal .writeError u)

/-- The outcomes of the echo phase (41_echo_adapter.md R103); `t` is where the caller goes on after OK. -/
inductive EchoOutcome (bytes : List Byte) (t u : State) : RxAnswer → State → Prop where
  | ok : EchoOutcome bytes t u (.data bytes) t
  | short (bs : List Byte) (h : 1 ≤ bs.length ∧ bs.length < bytes.length) :
      EchoOutcome bytes t u (.data bs) (raiseFatal .echoShort u)
  | none : EchoOutcome bytes t u .timeout (raiseFatal .echoShort u)
  | mismatch (bs : List Byte) (h : bs.length = bytes.length ∧ bs ≠ bytes) :
      EchoOutcome bytes t u (.data bs) (raiseFatal .echoMismatch u)
  | error : EchoOutcome bytes t u .error (raiseFatal .echoError u)

/-- The outcomes of the instruction `i` that a host access decodes to (44_host_commands.md), in the state `u` that the access leaves. -/
inductive HostEffect (i : Instr) (u : State) : State → Prop where
  | read (t : HostTarget) (v : HostValue) : HostEffect i u (hostReply t v u)
  | capacity (c : BitVec 17) (hb : isBusy u.flow = false) (hc : capacityLegal c = true) :
      HostEffect i u { u with cfgCapacity := some c }
  | magic (m : Bytes 4) (hb : isBusy u.flow = false) : HostEffect i u { u with cfgMagic := some m }
  | ack (a : List Byte) (hb : isBusy u.flow = false) (ha : 1 ≤ a.length ∧ a.length ≤ u.params.ackMax ∧ a.length < 0x10000) :
      HostEffect i u { u with cfgAck := some a, cfgAckLen := some (BitVec.ofNat 16 a.length) }
  | pktMagic (m : Bytes 4) : HostEffect i u { u with pktMagic := some m }
  | pktOffset (o : BitVec 16) : HostEffect i u { u with pktOffset := some o }
  | pktAction (a : Byte) : HostEffect i u { u with pktAction := some a }
  | pktData (d : Bytes 16) : HostEffect i u { u with pktData := some d }
  | pktBlock (b : BitVec 16) : HostEffect i u { u with pktBlock := some b }
  | frame (f : Bytes 42) : HostEffect i u { u with frame := some f }
  | encode (f : Bytes 42) (hi : i = .cmdEncode) (hb : isBusy u.flow = false) (hf : u.flow ≠ .fatal) : HostEffect i u { u with frame := some f }
  | encodeRange (hi : i = .cmdEncode) (hb : isBusy u.flow = false) (hf : u.flow ≠ .fatal) : HostEffect i u (raiseFatal .encodeRange u)
  | decode (p : Packet) (ds : BitVec 2) (hi : i = .cmdDecode) (hb : isBusy u.flow = false) (hf : u.flow ≠ .fatal) :
      HostEffect i u { u with
        pktMagic := some p.magic, pktOffset := some p.offset, pktAction := some p.action, pktData := some p.data,
        decStatus := some (ds.setWidth 8) }
  | validate (vf : BitVec 4) (hi : i = .cmdValidate) (hb : isBusy u.flow = false) (hf : u.flow ≠ .fatal) :
      HostEffect i u { u with valFlags := some (vf.setWidth 8) }
  | startSend (c : BitVec 17) (m : Bytes 4) (a : List Byte) (hi : i = .cmdStartSend) (hb : isBusy u.flow = false) (hf : u.flow ≠ .fatal)
      (hc : u.cfgCapacity = some c) (hm : u.cfgMagic = some m) (ha : u.cfgAck = some a) :
      HostEffect i u { u with sendIndex := some 0#16, flow := .txFetch }
  | startRecv (c : BitVec 17) (m : Bytes 4) (a : List Byte) (hi : i = .cmdStartRecv) (hb : isBusy u.flow = false) (hf : u.flow ≠ .fatal)
      (hc : u.cfgCapacity = some c) (hm : u.cfgMagic = some m) (ha : u.cfgAck = some a) :
      HostEffect i u { u with image := zeroImage c, cursor := some 0#16, rxCount := some 0#6, flow := .rxFrame }

/-- The outcomes of a gathered frame (43_receive_flow.md R128-R135) in the state `u` that completing it leaves. -/
inductive FrameEffect (f : Bytes 42) (u : State) : State → Prop where
  | decodeFail (h : (decodePacket f).2 ≠ 0#2) :
      FrameEffect f u (emit .rxDecodeFail ((decodePacket f).2.setWidth 16) 0#16 u)
  | discard (hd : (decodePacket f).2 = 0#2)
      (h : hasError (validatePacket (decodePacket f).1 (flowMagic u) (flowCapacity u)) = true) :
      FrameEffect f u (emitFlags (validatePacket (decodePacket f).1 (flowMagic u) (flowCapacity u)) (decodePacket f).1.offset u)
  | accept (img : Image) (hd : (decodePacket f).2 = 0#2)
      (h : hasError (validatePacket (decodePacket f).1 (flowMagic u) (flowCapacity u)) = false)
      (hi : frameImage (decodePacket f).1 u.image = some img) :
      FrameEffect f u { u with
        events := u.events ++ acceptEvents (validatePacket (decodePacket f).1 (flowMagic u) (flowCapacity u))
          (decodePacket f).1.offset (flowCursor u),
        image := img, cursor := some (((decodePacket f).1.offset >>> 4) + 1#16), flow := .rxAckWrite }

/-- What a step can do. -/
inductive Effect (s : State) : State → Prop where
  | waits : Effect s s
  | reset (rest : List Stimulus) (hi : s.inbox = .reset :: rest) : Effect s (resetBlock { s with inbox := rest })
  | host (a : HostAccess) (i : Instr) (rest : List Stimulus) (t : State) (hi : s.inbox = .host a :: rest)
      (hd : Sys2Proof.decode (.host a) = .ok i) (h : HostEffect i (afterHost rest s) t) : Effect s t
  | sourceEof (rest : List Stimulus) (hf : s.flow = .txFetch) (hi : s.inbox = .src .eof :: rest) :
      Effect s { afterSrc .eof rest s with flow := .doneOk }
  | sourceError (rest : List Stimulus) (hf : s.flow = .txFetch) (hi : s.inbox = .src .error :: rest) :
      Effect s { afterSrc .error rest s with flow := .doneFail }
  | blockRange (rest : List Stimulus) (d : Bytes 16) (hf : s.flow = .txFetch) (hi : s.inbox = .src (.block d) :: rest)
      (h : 0x0FFF < (flowIndex s).toNat) : Effect s (raiseFatal .encodeRange (afterSrc (.block d) rest s))
  | block (rest : List Stimulus) (d : Bytes 16) (hf : s.flow = .txFetch) (hi : s.inbox = .src (.block d) :: rest)
      (h : (flowIndex s).toNat ≤ 0x0FFF) :
      Effect s (selfCheck (encodeFrame (flowMagic s) (flowIndex s) d) (flowMagic s) (flowCapacity s)
        { afterSrc (.block d) rest s with txbuf := some (encodeFrame (flowMagic s) (flowIndex s) d) })
  | sendFrame (a : TxAnswer) (rest : List Stimulus) (t : State) (hf : s.flow = .txWrite) (hi : s.inbox = .tx a :: rest)
      (h : WriteOutcome (flowTxbuf s).val .txEcho (afterTx (flowTxbuf s).val .write a rest s) a t) : Effect s t
  | echoFrame (a : RxAnswer) (rest : List Stimulus) (t : State) (hf : s.flow = .txEcho) (hi : s.inbox = .rx a :: rest)
      (h : EchoOutcome (flowTxbuf s).val { afterRx (flowTxbuf s).val.length .echo a rest s with flow := .txAck }
        (afterRx (flowTxbuf s).val.length .echo a rest s) a t) : Effect s t
  | ackError (rest : List Stimulus) (hf : s.flow = .txAck) (hi : s.inbox = .rx .error :: rest) :
      Effect s (raiseFatal .ackReadError (afterRx (flowAckLen s).toNat .ack .error rest s))
  | ackRead (bs : List Byte) (a : RxAnswer) (rest : List Stimulus) (hf : s.flow = .txAck) (hi : s.inbox = .rx a :: rest)
      (ha : a = .timeout ∧ bs = [] ∨ a = .data bs ∧ 1 ≤ bs.length ∧ bs.length ≤ (flowAckLen s).toNat) :
      Effect s { afterRx (flowAckLen s).toNat .ack a rest s with
        events := s.events ++
          if bs = flowAck s then [] else [{ code := .txAckMismatch, a := BitVec.ofNat 16 bs.length, b := flowIndex s }],
        sendIndex := some (flowIndex s + 1#16), flow := .txFetch }
  | framingError (rest : List Stimulus) (hf : s.flow = .rxFrame) (hi : s.inbox = .rx .error :: rest) :
      Effect s (raiseFatal .rxReadError (afterRx 1 .rx .error rest s))
  | framingTimeout (rest : List Stimulus) (hf : s.flow = .rxFrame) (hi : s.inbox = .rx .timeout :: rest) :
      Effect s (idleTimeout (flowCount s) (afterRx 1 .rx .timeout rest s))
  | gather (rest : List Stimulus) (b : Byte) (hf : s.flow = .rxFrame) (hi : s.inbox = .rx (.data [b]) :: rest)
      (hb : b ≠ 0x0D#8) : Effect s (gatherByte b (flowCount s) (afterRx 1 .rx (.data [b]) rest s))
  | shortFrame (rest : List Stimulus) (hf : s.flow = .rxFrame) (hi : s.inbox = .rx (.data [0x0D#8]) :: rest)
      (h : flowCount s ≠ 41#6) :
      Effect s { emit .rxShortFrame ((flowCount s).setWidth 16 + 1#16) 0#16 (afterRx 1 .rx (.data [0x0D#8]) rest s) with
        rxCount := some 0#6 }
  | gathered (rest : List Stimulus) (t : State) (hf : s.flow = .rxFrame) (hi : s.inbox = .rx (.data [0x0D#8]) :: rest)
      (hx : flowCount s = 41#6)
      (h : FrameEffect (flowRxbuf { s with rxbuf := rxStore s.rxbuf 41 0x0D#8 }) { afterRx 1 .rx (.data [0x0D#8]) rest s with
        rxbuf := rxStore s.rxbuf 41 0x0D#8, rxCount := some 0#6 } t) : Effect s t
  | sendAck (a : TxAnswer) (rest : List Stimulus) (t : State) (hf : s.flow = .rxAckWrite) (hi : s.inbox = .tx a :: rest)
      (h : WriteOutcome (flowAck s) .rxAckEcho (afterTx (flowAck s) .write a rest s) a t) : Effect s t
  | echoAck (a : RxAnswer) (rest : List Stimulus) (t : State) (hf : s.flow = .rxAckEcho) (hi : s.inbox = .rx a :: rest)
      (h : EchoOutcome (flowAck s) { afterRx (flowAck s).length .echo a rest s with
          flow := if (flowCapacity s).toNat ≤ (flowCursor s).toNat * 16 then .doneOk else .rxFrame }
        (afterRx (flowAck s).length .echo a rest s) a t) : Effect s t

/-- The write phase reaches no other state, and a wait leaves the state as it was. -/
theorem adapterWrite_effect {bytes : List Byte} {after : FlowState} {s t : State}
    (h : adapterWrite bytes after s = .next t) :
    t = s ∨ ∃ a rest, s.inbox = .tx a :: rest ∧ WriteOutcome bytes after (afterTx bytes .write a rest s) a t := by
  rcases adapterWrite_next h with rfl | ⟨a, rest, hi, ha, ⟨rfl, rfl⟩ | ⟨rfl, n, rfl, hn⟩ | ⟨rfl, rfl⟩⟩
  · exact .inl rfl
  · exact .inr ⟨_, rest, hi, .all⟩
  · simp only [txAdmits, decide_eq_true_eq] at ha
    exact .inr ⟨_, rest, hi, .short n (by omega)⟩
  · exact .inr ⟨_, rest, hi, .error⟩

/-- The echo phase reaches no other state but those the caller goes on to. -/
theorem adapterEcho_effect {bytes : List Byte} {onOk : State → Out} {s t : State}
    (h : adapterEcho bytes onOk s = .next t) :
    t = s ∨ (∃ rest, s.inbox = .rx (.data bytes) :: rest
        ∧ onOk (afterRx bytes.length .echo (.data bytes) rest s) = .next t)
      ∨ ∃ a rest, s.inbox = .rx a :: rest ∧ a ≠ .data bytes
        ∧ ∀ v, EchoOutcome bytes v (afterRx bytes.length .echo a rest s) a t := by
  rcases adapterEcho_next h with
    rfl | ⟨a, rest, hi, ha, ⟨h, rfl⟩ | ⟨rfl, rfl⟩ | ⟨rfl, rfl | ⟨bs, rfl, hb⟩⟩ | ⟨rfl, bs, rfl, hb, hne⟩⟩
  · exact .inl rfl
  · exact .inr (.inl ⟨rest, hi, h⟩)
  · exact .inr (.inr ⟨_, rest, hi, by simp, fun _ => .error⟩)
  · exact .inr (.inr ⟨_, rest, hi, by simp, fun _ => .none⟩)
  · simp only [rxAdmits, Bool.and_eq_true, decide_eq_true_eq] at ha
    exact .inr (.inr ⟨_, rest, hi, by rintro ⟨⟩; omega, fun _ => .short bs ⟨ha.1, hb⟩⟩)
  · exact .inr (.inr ⟨_, rest, hi, by rintro ⟨⟩; exact hne rfl, fun _ => .mismatch bs ⟨hb, hne⟩⟩)

theorem issueCommand_effect {c : Byte} {u t : State} (h : issueCommand c u = .next t) :
    HostEffect (decodeCommand c) u t := by
  unfold issueCommand at h
  split at h
  · subst_vars
    obtain ⟨hb, hf, h⟩ := commandGate_next h
    obtain ⟨bi, _, h⟩ := withOperand_next h
    obtain ⟨d, _, h⟩ := withOperand_next h
    obtain ⟨m, _, h⟩ := withOperand_next h
    split at h <;> cases h
    · exact .encode _ rfl hb hf
    · exact .encodeRange rfl hb hf
  split at h
  · subst_vars
    obtain ⟨hb, hf, h⟩ := commandGate_next h
    obtain ⟨f, _, h⟩ := withOperand_next h
    cases h
    exact .decode _ _ rfl hb hf
  split at h
  · subst_vars
    obtain ⟨hb, hf, h⟩ := commandGate_next h
    obtain ⟨_, _, h⟩ := withOperand_next h
    obtain ⟨_, _, h⟩ := withOperand_next h
    obtain ⟨_, _, h⟩ := withOperand_next h
    obtain ⟨_, _, h⟩ := withOperand_next h
    obtain ⟨_, _, h⟩ := withOperand_next h
    cases h
    exact .validate _ rfl hb hf
  split at h
  · subst_vars
    obtain ⟨hb, hf, h⟩ := commandGate_next h
    obtain ⟨c, m, a, hc, hm, ha, h⟩ := withConfig_next h
    cases h
    exact .startSend c m a rfl hb hf hc hm ha
  split at h
  · subst_vars
    obtain ⟨hb, hf, h⟩ := commandGate_next h
    obtain ⟨c, m, a, hc, hm, ha, h⟩ := withConfig_next h
    cases h
    exact .startRecv c m a rfl hb hf hc hm ha
  · obtain ⟨_, _, h⟩ := commandGate_next h
    cases h

theorem writeRegister_effect {i : Instr} {r : Reg} {v : HostValue} {u t : State} (hr : r ≠ .cmd)
    (h : writeRegister r v u = .next t) : HostEffect i u t := by
  cases r with
  | cmd => exact absurd rfl hr
  | status => cases h
  | cfgCapacity =>
    obtain ⟨hb, h⟩ := configGate_next h
    obtain ⟨c, _, h⟩ := withLegal_next h
    split at h <;> cases h
    exact .capacity c hb ‹_›
  | cfgMagic => obtain ⟨hb, h⟩ := configGate_next h; obtain ⟨c, _, h⟩ := withLegal_next h; cases h; exact .magic c hb
  | cfgAckLen => cases h
  | cfgAck =>
    obtain ⟨hb, h⟩ := configGate_next h
    obtain ⟨c, hc, h⟩ := withLegal_next h
    cases h
    exact .ack c hb (valueAsAck_eq_some.1 hc).2
  | pktMagic => obtain ⟨c, _, h⟩ := withLegal_next h; cases h; exact .pktMagic c
  | pktOffset => obtain ⟨c, _, h⟩ := withLegal_next h; cases h; exact .pktOffset c
  | pktAction => obtain ⟨c, _, h⟩ := withLegal_next h; cases h; exact .pktAction c
  | pktData => obtain ⟨c, _, h⟩ := withLegal_next h; cases h; exact .pktData c
  | pktBlock => obtain ⟨c, _, h⟩ := withLegal_next h; cases h; exact .pktBlock c
  | decStatus => cases h
  | valFlags => cases h
  | frame => obtain ⟨c, _, h⟩ := withLegal_next h; cases h; exact .frame c
  | sendIndex => cases h
  | cursor => cases h

theorem regOf_eq_cmd {n : BitVec 8} (h : regOf n = some .cmd) : n = 0x00#8 := by revert n; decide

/-- A write that is no command (`decodeWrite` makes a command of a byte written to CMD). -/
theorem execWr_effect {i : Instr} {x : HostTarget} {v : HostValue} {u t : State}
    (hx : x = .reg 0x00#8 → valueAsByte v = none) (h : execWr x v u = .next t) : HostEffect i u t := by
  unfold execWr at h
  split at h
  · cases h
  · split at h
    · cases h
    · rename_i n r hr
      refine writeRegister_effect (fun hc => ?_) h
      subst hc
      rw [writeRegister, hx (by rw [regOf_eq_cmd hr])] at h
      cases h

theorem execRd_effect {i : Instr} {x : HostTarget} {u t : State} (h : execRd x u = .next t) : HostEffect i u t := by
  unfold execRd at h
  split at h
  · split at h
    · cases h
    · split at h <;> cases h
      exact .read _ _
  · split at h
    · cases h
    · split at h
      · cases h
      · obtain ⟨v, _, h⟩ := withOperand_next h
        cases h
        exact .read _ _

/-- A host access, decoded and run. -/
theorem runHost_effect {a : HostAccess} {u t : State} (h : runFetched (fetchDecoded (.host a) u) = .next t) :
    ∃ i, Sys2Proof.decode (.host a) = .ok i ∧ HostEffect i u t := by
  cases a with
  | read x => exact ⟨_, rfl, execRd_effect h⟩
  | write x v =>
    refine ⟨decodeWrite x v, rfl, ?_⟩
    rw [fetchDecoded, decode_write] at h
    by_cases hx : x = .reg 0x00#8
    · cases hv : valueAsByte v with
      | some c =>
        rw [show decodeWrite x v = decodeCommand c by rw [decodeWrite, if_pos hx, hv]] at h ⊢
        rw [runFetched_run, exec_decodeCommand] at h
        exact issueCommand_effect h
      | none =>
        rw [show decodeWrite x v = .wr x v by rw [decodeWrite, if_pos hx, hv]] at h
        exact execWr_effect (fun _ => hv) h
    · rw [decodeWrite_of_ne v hx] at h
      exact execWr_effect (fun h0 => absurd h0 hx) h

/-- A gathered frame, run. -/
theorem processFrame_effect {f : Bytes 42} {u t : State} (h : processFrame f u = .next t) : FrameEffect f u t := by
  simp only [processFrame] at h
  split at h
  · cases h
    exact .decodeFail ‹_›
  rename_i hd
  rw [not_not] at hd
  split at h
  · cases h
    exact .discard hd ‹_›
  rename_i hv
  rw [Bool.not_eq_true] at hv
  unfold acceptPacket at h
  split at h
  · cases h
  · rename_i img hi
    rw [emitFlags_eq] at hi
    cases h
    rw [show flowCursor (emitFlags _ _ u) = flowCursor u by rw [emitFlags_eq]; rfl, emitJump_emitFlags]
    exact .accept img hd hv hi

/-- What the self-check (42_send_flow.md R112) can end in. -/
theorem selfCheck_cases (f : Bytes 42) (magic : Bytes 4) (capacity : BitVec 17) (u : State) :
    selfCheck f magic capacity u = raiseFatal .selfcheckDecode u
    ∨ selfCheck f magic capacity u = raiseFatal .selfcheckInvalid u
    ∨ (decodePacket f).2 = 0#2 ∧ hasError (validatePacket (decodePacket f).1 magic capacity) = false
      ∧ selfCheck f magic capacity u = { u with flow := .txWrite } := by
  simp only [selfCheck]
  split
  · exact .inl rfl
  split
  · exact .inr (.inl rfl)
  · exact .inr (.inr ⟨by simpa using ‹¬(decodePacket f).2 ≠ 0#2›, by simpa using ‹¬hasError _ = true›, rfl⟩)

/-- What the block's own answer of TX_FETCH does. -/
theorem stepTxFetch_effect {s t : State} (hf : s.flow = .txFetch) (h : stepTxFetch s = .next t) : Effect s t := by
  unfold stepTxFetch at h
  split at h
  · cases h; exact .waits
  · cases h
  · rename_i u hu
    obtain ⟨rest, hi, rfl⟩ := srcRead_answered.1 hu
    cases h
    exact .sourceEof rest hf hi
  · rename_i u hu
    obtain ⟨rest, hi, rfl⟩ := srcRead_answered.1 hu
    cases h
    exact .sourceError rest hf hi
  · rename_i d u hu
    obtain ⟨rest, hi, rfl⟩ := srcRead_answered.1 hu
    unfold sendBlock at h
    split at h
    · rename_i he
      cases h
      exact .block rest d hf hi (of_decide_eq_true he)
    · rename_i he
      cases h
      exact .blockRange rest d hf hi (Nat.lt_of_not_le fun hle => he (decide_eq_true hle))

theorem ackReceived_eq (bs : List Byte) (u : State) :
    ackReceived bs u = .next { u with
      events := u.events ++
        if bs = flowAck u then [] else [{ code := .txAckMismatch, a := BitVec.ofNat 16 bs.length, b := flowIndex u }],
      sendIndex := some (flowIndex u + 1#16), flow := .txFetch } := by
  unfold ackReceived
  by_cases hb : bs = flowAck u
  · simp only [hb, if_true, List.append_nil]
  · simp only [hb, if_false]; rfl

/-- The read of TX_ACK, and what it brings. -/
theorem fetchTxAck_effect {s t : State} (hf : s.flow = .txAck) (h : runFetched (fetchTxAck s) = .next t) : Effect s t := by
  unfold fetchTxAck at h
  split at h
  · cases h; exact .waits
  · cases h
  · rename_i u hu
    obtain ⟨rest, hi, _, rfl⟩ := rxRead_answered.1 hu
    cases h
    exact .ackError rest hf hi
  · rename_i u hu
    obtain ⟨rest, hi, _, rfl⟩ := rxRead_answered.1 hu
    rw [runFetched_finished, ackReceived_eq] at h
    cases h
    exact .ackRead [] _ rest hf hi (.inl ⟨rfl, rfl⟩)
  · rename_i bs u hu
    obtain ⟨rest, hi, ha, hu'⟩ := rxRead_answered.1 hu
    simp only [rxAdmits, Bool.and_eq_true, decide_eq_true_eq] at ha
    have hne : bs ≠ [] := by rintro rfl; simp at ha
    have huf : u.flow = .txAck := by rw [hu']; exact hf
    rw [fetchDecoded_ack hne, runFetched_run] at h
    have h : execAckFrame bs u = .next t := h
    rw [execAckFrame_txAck bs huf, ackReceived_eq] at h
    subst hu'
    cases h
    exact .ackRead bs _ rest hf hi (.inr ⟨rfl, ha⟩)

/-- The framing read, and what it brings. -/
theorem fetchRxFrame_effect {s t : State} (hf : s.flow = .rxFrame) (h : runFetched (fetchRxFrame s) = .next t) :
    Effect s t := by
  unfold fetchRxFrame at h
  split at h
  · cases h; exact .waits
  · cases h
  · rename_i u hu
    obtain ⟨rest, hi, _, rfl⟩ := rxRead_answered.1 hu
    cases h
    exact .framingError rest hf hi
  · rename_i u hu
    obtain ⟨rest, hi, _, rfl⟩ := rxRead_answered.1 hu
    cases h
    exact .framingTimeout rest hf hi
  · cases h
  · rename_i b bs' u hu
    obtain ⟨rest, hi, ha, rfl⟩ := rxRead_answered.1 hu
    simp only [rxAdmits, Bool.and_eq_true, decide_eq_true_eq, List.length_cons] at ha
    obtain rfl : bs' = [] := List.eq_nil_of_length_eq_zero (by omega)
    split at h
    · rename_i hb
      subst hb
      unfold endFrame at h
      split at h
      · cases h
        exact .shortFrame rest hf hi ‹_›
      · rename_i h41
        rw [not_not] at h41
        simp only [fetchDecoded_frame, runFetched_run, exec_decodeFrame] at h
        exact .gathered rest t hf hi h41 (processFrame_effect ((runFrame_rxFrame (s := { afterRx 1 .rx (.data [0x0D#8]) rest s with
          rxbuf := rxStore s.rxbuf 41 0x0D#8, rxCount := some 0#6 }) _ hf).symm.trans h))
    · cases h
      exact .gather rest b hf hi ‹_›

/-- The acknowledgement that the receive flow sends and whose echo it reads. -/
theorem fetchCfgAck_effect {s t : State} (hf : s.flow = .rxAckWrite ∨ s.flow = .rxAckEcho)
    (h : runFetched (fetchCfgAck s) = .next t) : Effect s t := by
  unfold fetchCfgAck at h
  by_cases hne : flowAck s = []
  · rw [hne] at h; cases h
  rw [fetchDecoded_ack hne, runFetched_run] at h
  have h : execAckFrame (flowAck s) s = .next t := h
  rcases hf with hf | hf
  · rw [execAckFrame_rxAckWrite _ hf] at h
    rcases adapterWrite_effect h with rfl | ⟨a, rest, hi, h⟩
    · exact .waits
    · exact .sendAck a rest t hf hi h
  · rw [execAckFrame_rxAckEcho _ hf] at h
    rcases adapterEcho_effect h with rfl | ⟨rest, hi, h⟩ | ⟨a, rest, hi, _, h⟩
    · exact .waits
    · cases h
      exact .echoAck _ rest _ hf hi .ok
    · exact .echoAck a rest t hf hi (h _)

/-- The frame that the send flow sends and whose echo it reads. -/
theorem fetchTxbuf_effect {s t : State} (hf : s.flow = .txWrite ∨ s.flow = .txEcho)
    (h : runFetched (fetchTxbuf s) = .next t) : Effect s t := by
  rw [fetchTxbuf, fetchDecoded_frame, runFetched_run, exec_decodeFrame] at h
  rcases hf with hf | hf
  · rw [runFrame_txWrite _ hf] at h
    rcases adapterWrite_effect h with rfl | ⟨a, rest, hi, h⟩
    · exact .waits
    · exact .sendFrame a rest t hf hi h
  · rw [runFrame_txEcho _ hf] at h
    rcases adapterEcho_effect h with rfl | ⟨rest, hi, h⟩ | ⟨a, rest, hi, _, h⟩
    · exact .waits
    · cases h
      exact .echoFrame _ rest _ hf hi .ok
    · exact .echoFrame a rest t hf hi (h _)

/-- What a step of the active flow can do. -/
theorem fetchFlow_effect {s t : State} (h : runFetched (fetchFlow s) = .next t) : Effect s t := by
  cases hf : s.flow <;> simp only [fetchFlow, hf] at h
  case txFetch => exact stepTxFetch_effect hf h
  case txWrite => exact fetchTxbuf_effect (.inl hf) h
  case txEcho => exact fetchTxbuf_effect (.inr hf) h
  case txAck => exact fetchTxAck_effect hf h
  case rxFrame => exact fetchRxFrame_effect hf h
  case rxAckWrite => exact fetchCfgAck_effect (.inl hf) h
  case rxAckEcho => exact fetchCfgAck_effect (.inr hf) h
  all_goals cases h

/-- A step reaches no state but those `Effect` lists. -/
theorem step_effect {s t : State} (h : step s = .next t) : Effect s t := by
  unfold step fetch at h
  split at h
  · cases h; exact .waits
  · obtain ⟨i, hd, h⟩ := runHost_effect h
    exact .host _ i _ t ‹_› hd h
  · cases h; exact .reset _ ‹_›
  · exact fetchFlow_effect h
  · exact fetchFlow_effect h
  · exact fetchFlow_effect h

end Sys2Proof.Machine
end

