-- ==== Sys2Proof/Laws/PerInstr.lean ====
section
/-! SUPPORT. A fact about every instruction as syntax, one lemma a constructor: an instruction of the wire stands as wire bytes, and
one of the host port as a host access, as the table's formats say. -/

namespace Sys2Proof.Laws.EncodesInFormat

/-- The format of opcode_table.json a row has: wire_frame_42, ack_sequence, or a host format. -/
def Statement (i : Instr) : Prop :=
  match i with
  | .frameWrite _ _ _ _ => ∃ bs, encode i = .frame bs ∧ bs.length = 42
  | .frameOther _ _ _ _ _ => ∃ bs, encode i = .frame bs ∧ bs.length = 42
  | .ackFrame bs => encode i = .ack bs
  | .cmdEncode => ∃ c, encode i = .host (.write (.reg 0x00#8) (.num c)) ∧ c < 256
  | .cmdDecode => ∃ c, encode i = .host (.write (.reg 0x00#8) (.num c)) ∧ c < 256
  | .cmdValidate => ∃ c, encode i = .host (.write (.reg 0x00#8) (.num c)) ∧ c < 256
  | .cmdStartSend => ∃ c, encode i = .host (.write (.reg 0x00#8) (.num c)) ∧ c < 256
  | .cmdStartRecv => ∃ c, encode i = .host (.write (.reg 0x00#8) (.num c)) ∧ c < 256
  | .cmdReserved _ => ∃ c, encode i = .host (.write (.reg 0x00#8) (.num c)) ∧ c < 256
  | .wr t v => encode i = .host (.write t v)
  | .rd t => encode i = .host (.read t)

theorem frameWrite (m o : Bytes 4) (d : Bytes 32) (t : Byte) : Statement (.frameWrite m o d t) :=
  ⟨_, rfl, (frameBytes m o 0x57#8 d t).property⟩
theorem frameOther (m o : Bytes 4) (a : Byte) (d : Bytes 32) (t : Byte) : Statement (.frameOther m o a d t) :=
  ⟨_, rfl, (frameBytes m o a d t).property⟩
theorem ackFrame (bs : List Byte) : Statement (.ackFrame bs) := rfl
theorem cmdEncode : Statement .cmdEncode := ⟨_, rfl, by decide⟩
theorem cmdDecode : Statement .cmdDecode := ⟨_, rfl, by decide⟩
theorem cmdValidate : Statement .cmdValidate := ⟨_, rfl, by decide⟩
theorem cmdStartSend : Statement .cmdStartSend := ⟨_, rfl, by decide⟩
theorem cmdStartRecv : Statement .cmdStartRecv := ⟨_, rfl, by decide⟩
theorem cmdReserved (c : Byte) : Statement (.cmdReserved c) := ⟨_, rfl, c.isLt⟩
theorem wr (t : HostTarget) (v : HostValue) : Statement (.wr t v) := rfl
theorem rd (t : HostTarget) : Statement (.rd t) := rfl

end Sys2Proof.Laws.EncodesInFormat
end

