-- ==== Sys2Proof/Tests/Slice0.lean ====
section
/-! SUPPORT. Tests, each of one decode or one step, with the expected value from spec/95_test_vectors.md or worked out by hand from
the rule named; and for every statement with hypotheses a state and operands that meet them. -/

namespace Sys2Proof.Tests

open Sys2Proof.Machine

/-! ### Test data -/

/-- "RPGM" (95_test_vectors.md, conventions). -/
def rpgm : Bytes 4 := ⟨[0x52#8, 0x50#8, 0x47#8, 0x4D#8], rfl⟩
/-- "0000", "0010", "0030", "0040", "0008", "00G0". -/
def off0000 : Bytes 4 := ⟨[0x30#8, 0x30#8, 0x30#8, 0x30#8], rfl⟩
def off0010 : Bytes 4 := ⟨[0x30#8, 0x30#8, 0x31#8, 0x30#8], rfl⟩
def off0030 : Bytes 4 := ⟨[0x30#8, 0x30#8, 0x33#8, 0x30#8], rfl⟩
def off0040 : Bytes 4 := ⟨[0x30#8, 0x30#8, 0x34#8, 0x30#8], rfl⟩
def off0008 : Bytes 4 := ⟨[0x30#8, 0x30#8, 0x30#8, 0x38#8], rfl⟩
def off00G0 : Bytes 4 := ⟨[0x30#8, 0x30#8, 0x47#8, 0x30#8], rfl⟩
/-- The acknowledgement of the vectors, "\r\nOK\r\n". -/
def okAck : List Byte := [0x0D#8, 0x0A#8, 0x4F#8, 0x4B#8, 0x0D#8, 0x0A#8]
/-- 01 02 .. 10. -/
def block1to16 : Bytes 16 := ⟨[0x01#8, 0x02#8, 0x03#8, 0x04#8, 0x05#8, 0x06#8, 0x07#8, 0x08#8, 0x09#8, 0x0A#8, 0x0B#8, 0x0C#8,
  0x0D#8, 0x0E#8, 0x0F#8, 0x10#8], rfl⟩
/-- "0102..0F10". -/
def hex1to16 : Bytes 32 := ⟨[0x30#8, 0x31#8, 0x30#8, 0x32#8, 0x30#8, 0x33#8, 0x30#8, 0x34#8, 0x30#8, 0x35#8, 0x30#8, 0x36#8,
  0x30#8, 0x37#8, 0x30#8, 0x38#8, 0x30#8, 0x39#8, 0x30#8, 0x41#8, 0x30#8, 0x42#8, 0x30#8, 0x43#8, 0x30#8, 0x44#8, 0x30#8, 0x45#8,
  0x30#8, 0x46#8, 0x31#8, 0x30#8], rfl⟩
/-- "0a" and thirty '0': a lowercase digit. -/
def hexLower : Bytes 32 := ⟨0x30#8 :: 0x61#8 :: List.replicate 30 0x30#8, rfl⟩
/-- The 42 bytes of V1.8, written out. -/
def frameV18 : Bytes 42 := ⟨[0x52#8, 0x50#8, 0x47#8, 0x4D#8, 0x30#8, 0x30#8, 0x30#8, 0x30#8, 0x57#8, 0x30#8, 0x31#8, 0x30#8,
  0x32#8, 0x30#8, 0x33#8, 0x30#8, 0x34#8, 0x30#8, 0x35#8, 0x30#8, 0x36#8, 0x30#8, 0x37#8, 0x30#8, 0x38#8, 0x30#8, 0x39#8, 0x30#8,
  0x41#8, 0x30#8, 0x42#8, 0x30#8, 0x43#8, 0x30#8, 0x44#8, 0x30#8, 0x45#8, 0x30#8, 0x46#8, 0x31#8, 0x30#8, 0x0D#8], rfl⟩
/-- V1.8's frame with byte 9 changed from '0' to '1' (V1.7). -/
def frameV17 : List Byte := frameV18.val.set 9 0x31#8

/-- Configured as the vectors are, idle; they assume ACK_MAX >= 6 (92_eei_decisions.md D10). -/
def conf (capacity : BitVec 17) : State := { State.reset with
  params := { ackMax := 6, timeoutClearsFrame := false },
  cfgCapacity := some capacity, cfgMagic := some rpgm, cfgAckLen := some 6#16, cfgAck := some okAck }
/-- The send flow in a state, at a block index, with V1.8's frame in TXBUF. -/
def sending (capacity : BitVec 17) (f : FlowState) (index : BitVec 16) (inbox : List Stimulus) : State :=
  { conf capacity with flow := f, sendIndex := some index, txbuf := some frameV18, inbox := inbox }
/-- The receive flow in a state, at a cursor and a count, with an image of zeros. -/
def receiving (capacity : BitVec 17) (f : FlowState) (cursor : BitVec 16) (count : BitVec 6) (inbox : List Stimulus) : State :=
  { conf capacity with
    flow := f, cursor := some cursor, rxCount := some count, image := zeroImage capacity, inbox := inbox,
    rxbuf := ⟨frameV18.val.map some, by rw [List.length_map, frameV18.property]⟩ }

/-- The outcome is a next state with the property. -/
def goes (o : Out) (p : State → Bool) : Bool :=
  match o with
  | .next t => p t
  | .fault _ => false
  | .refused _ => false
/-- The outcome is that refusal. -/
def refuses (o : Out) (r : Refusal) : Bool :=
  match o with
  | .next _ => false
  | .fault _ => false
  | .refused r' => r' == r
/-- STATUS of the next state. -/
def status (o : Out) (w : BitVec 32) : Bool := goes o fun t => statusWord t == w
/-- An event. -/
def ev (c : EventCode) (a b : BitVec 16) : Event := { code := c, a := a, b := b }

/-! ### Well-formedness: a term that each check refuses -/

theorem test_wf_accepts :
    (Instr.frameWrite rpgm off0000 hex1to16 0x0D#8).wf = true ∧ (Instr.frameOther rpgm off0000 0x52#8 hex1to16 0x0D#8).wf = true
    ∧ (Instr.ackFrame okAck).wf = true ∧ (Instr.cmdReserved 0x04#8).wf = true ∧ Instr.cmdEncode.wf = true
    ∧ (Instr.wr (.reg 0x02#8) (.num 0x10000)).wf = true ∧ (Instr.wr (.reg 0x05#8) (.bytes okAck)).wf = true
    ∧ (Instr.rd (.reg 0x11#8)).wf = true ∧ (Instr.rd (.image 0xFFFF)).wf = true := by decide
theorem test_wf_refuses_frames :
    (Instr.frameWrite rpgm off00G0 hex1to16 0x0D#8).wf = false ∧ (Instr.frameWrite rpgm off0000 hexLower 0x0D#8).wf = false
    ∧ (Instr.frameWrite rpgm off0000 hex1to16 0x58#8).wf = false
    ∧ (Instr.frameOther rpgm off00G0 0x52#8 hex1to16 0x0D#8).wf = false
    ∧ (Instr.frameOther rpgm off0000 0x52#8 hexLower 0x0D#8).wf = false
    ∧ (Instr.frameOther rpgm off0000 0x52#8 hex1to16 0x00#8).wf = false
    ∧ (Instr.frameOther rpgm off0000 0x57#8 hex1to16 0x0D#8).wf = false
    ∧ (Instr.ackFrame []).wf = false := by decide
/-- A length of 17 bits. -/
theorem test_wf_refuses_long_ack (bs : List Byte) (h : bs.length = 0x10000) : (Instr.ackFrame bs).wf = false := by
  simp [Instr.wf, h]
theorem test_wf_refuses_commands :
    (Instr.cmdReserved 0x01#8).wf = false ∧ (Instr.cmdReserved 0x11#8).wf = false := by decide
theorem test_wf_refuses_writes :
    (Instr.wr (.reg 0x02#8) (.num 0x18)).wf = false ∧ (Instr.wr (.reg 0x02#8) (.num 0)).wf = false
    ∧ (Instr.wr (.reg 0x02#8) (.num 0x10010)).wf = false ∧ (Instr.wr (.reg 0x09#8) (.num 0x10000)).wf = false
    ∧ (Instr.wr (.reg 0x0C#8) (.num 0x10000)).wf = false ∧ (Instr.wr (.reg 0x0A#8) (.num 0x100)).wf = false
    ∧ (Instr.wr (.reg 0x0A#8) (.bytes [])).wf = false
    ∧ (Instr.wr (.reg 0x03#8) (.bytes [])).wf = false ∧ (Instr.wr (.reg 0x08#8) (.bytes okAck)).wf = false
    ∧ (Instr.wr (.reg 0x05#8) (.bytes [])).wf = false ∧ (Instr.wr (.reg 0x0B#8) (.bytes okAck)).wf = false
    ∧ (Instr.wr (.reg 0x0F#8) (.bytes okAck)).wf = false ∧ (Instr.wr (.reg 0x00#8) (.num 1)).wf = false
    ∧ (Instr.wr (.reg 0x01#8) (.num 0)).wf = false ∧ (Instr.wr (.image 0) (.num 0)).wf = false := by decide
theorem test_wf_refuses_reads :
    (Instr.rd (.reg 0x00#8)).wf = false ∧ (Instr.rd (.reg 0x06#8)).wf = false ∧ (Instr.rd (.reg 0x12#8)).wf = false
    ∧ (Instr.rd (.image 0x10000)).wf = false := by decide
/-- The numbers the syntax calls readable are the named registers but CMD (R24). -/
theorem test_wf_numbers_match : ∀ n : BitVec 8, readableNumber n = ((regOf n).isSome && n != 0x00#8) := by decide

/-! ### Decoding, from words written out by hand -/

theorem test_decode_frame_write :
    decode (.frame frameV18.val) = .ok (.frameWrite rpgm off0000 hex1to16 0x0D#8) := by decide
/-- Byte 8 'R' (0x52) in place of 'W'. -/
theorem test_decode_frame_other :
    decode (.frame (frameV18.val.set 8 0x52#8)) = .ok (.frameOther rpgm off0000 0x52#8 hex1to16 0x0D#8) := by decide
theorem test_decode_frame_rejects : decode (.frame (frameV18.val.take 41)) = .error .frameLength
    ∧ decode (.frame (frameV18.val ++ [0x0D#8])) = .error .frameLength ∧ decode (.ack []) = .error .ackEmpty := by decide
theorem test_decode_ack : decode (.ack okAck) = .ok (.ackFrame okAck) := by decide
theorem test_decode_commands :
    decode (.host (.write (.reg 0x00#8) (.num 0x01))) = .ok .cmdEncode
    ∧ decode (.host (.write (.reg 0x00#8) (.num 0x02))) = .ok .cmdDecode
    ∧ decode (.host (.write (.reg 0x00#8) (.num 0x03))) = .ok .cmdValidate
    ∧ decode (.host (.write (.reg 0x00#8) (.bytes [0x10#8]))) = .ok .cmdStartSend
    ∧ decode (.host (.write (.reg 0x00#8) (.num 0x11))) = .ok .cmdStartRecv
    ∧ decode (.host (.write (.reg 0x00#8) (.num 0x12))) = .ok (.cmdReserved 0x12#8) := by decide
theorem test_decode_wr_rd :
    decode (.host (.write (.reg 0x03#8) (.bytes rpgm.val))) = .ok (.wr (.reg 0x03#8) (.bytes rpgm.val))
    ∧ decode (.host (.write (.reg 0x00#8) (.num 0x100))) = .ok (.wr (.reg 0x00#8) (.num 0x100))
    ∧ decode (.host (.read (.image 3))) = .ok (.rd (.image 3)) := by decide
/-- Table words: the command codes, the reserved code 0x00, and a frame of zeros but for byte 8. -/
theorem test_decode_table_words :
    decodeTableWord 8 0x01 = some .cmdEncode ∧ decodeTableWord 8 0x11 = some .cmdStartRecv
    ∧ decodeTableWord 8 0x00 = some (.cmdReserved 0x00#8)
    ∧ decodeTableWord 72 (0x57 * 2 ^ 64) = some (.frameWrite (zeroBytes 4) (zeroBytes 4) (zeroBytes 32) 0x00#8)
    ∧ decodeTableWord 336 (0x52 * 2 ^ 64 + 0x0D * 256 ^ 41)
        = some (.frameOther (zeroBytes 4) (zeroBytes 4) 0x52#8 (zeroBytes 32) 0x0D#8)
    ∧ decodeTableWord 344 0 = none := by decide
/-- A table word stands where the very next step runs it: a command at reset is refused for want of operands (V2.9), a frame that
does not end in 0x0D is the send flow's, one that does is the receive flow's and fails to decode (R128). -/
theorem test_table_words_run :
    refuses (step (State.reset.withFetchWord 8 0x10)) .noValue = true
    ∧ refuses (step (State.reset.withFetchWord 8 0x04)) .reservedCommand = true
    ∧ goes (step (State.reset.withFetchWord 72 (0x57 * 2 ^ 64))) (fun t => t.flow == .txEcho) = true
    ∧ goes (step (State.reset.withFetchWord 336 (0x52 * 2 ^ 64 + 0x0D * 256 ^ 41)))
        (fun t => t.events == [ev .rxDecodeFail 3#16 0#16]) = true := by decide

/-! ### The codec (V2.1 to V2.4) -/

theorem test_hex_digits :
    hexdigit 0x9#4 = 0x39#8 ∧ hexdigit 0xA#4 = 0x41#8 ∧ hexval 0x46#8 = some 0xF#4
    ∧ [0x2F#8, 0x3A#8, 0x40#8, 0x47#8, 0x61#8, 0x66#8, 0x0D#8, 0xB0#8].all (fun c => hexval c == none) = true := by decide
theorem test_encode : encodeFrame rpgm 0#16 block1to16 = frameV18
    ∧ (encodeFrame rpgm 0xFFF#16 block1to16).val.take 9
        = [0x52#8, 0x50#8, 0x47#8, 0x4D#8, 0x46#8, 0x46#8, 0x46#8, 0x30#8, 0x57#8] := by decide
theorem test_decode_packets :
    decodePacket frameV18 = ({ magic := rpgm, offset := 0#16, action := 0x57#8, data := block1to16 }, 0#2)
    ∧ decodePacket (frameBytes rpgm off00G0 0x57#8 hexLower 0x0D#8)
        = ({ magic := rpgm, offset := 0#16, action := 0x57#8, data := zeroBytes 16 }, 3#2)
    ∧ (decodePacket (frameBytes rpgm off0010 0x57#8 hexLower 0x0D#8)).2 = 2#2
    ∧ (decodePacket (frameBytes rpgm off0010 0x57#8 hexLower 0x0D#8)).1.offset = 0x0010#16 := by decide
theorem test_validate :
    validate rpgm 0x1001#16 0x57#8 rpgm 0x10000#17 = 0x4#4 ∧ validate rpgm 0x1001#16 0x57#8 rpgm 0x1000#17 = 0xC#4
    ∧ validate rpgm 0x1000#16 0x57#8 rpgm 0x1000#17 = 0x8#4 ∧ validate rpgm 0x0FF0#16 0x57#8 rpgm 0x1000#17 = 0x0#4
    ∧ validate rpgm 0x0000#16 0x77#8 rpgm 0x1000#17 = 0x2#4 ∧ validate off0000 0x1008#16 0x52#8 rpgm 0x1000#17 = 0xF#4
    ∧ validate rpgm 0xFFF0#16 0x57#8 rpgm 0x10000#17 = 0x0#4 := by decide

/-! ### One step of each instruction -/

/-- V2.8, first row: block 0 written, byte by byte, the cursor at 1, no event. -/
theorem test_frame_write :
    goes (exec (.frameWrite rpgm off0000 hex1to16 0x0D#8) (receiving 0x40#17 .rxFrame 0#16 0#6 []))
      (fun t => memRead 0 17 t.image == some (block1to16.val ++ [0x00#8]) && t.cursor == some 1#16 && t.flow == .rxAckWrite
        && t.events == []) = true := by decide
/-- V2.8: a gap, then a misaligned offset and an offset at the capacity, both thrown away. -/
theorem test_frame_write_jump_and_errors :
    goes (exec (.frameWrite rpgm off0030 hex1to16 0x0D#8) (receiving 0x40#17 .rxFrame 1#16 0#6 []))
      (fun t => t.events == [ev .rxGap 1#16 3#16] && t.cursor == some 4#16 && imageByte 0x3F t.image == some 0x10#8) = true
    ∧ goes (exec (.frameWrite rpgm off0008 hex1to16 0x0D#8) (receiving 0x40#17 .rxFrame 0#16 0#6 []))
      (fun t => t.events == [ev .rxValidate 4#16 8#16] && t.cursor == some 0#16 && t.flow == .rxFrame) = true
    ∧ goes (exec (.frameWrite rpgm off0040 hex1to16 0x0D#8) (receiving 0x40#17 .rxFrame 0#16 0#6 []))
      (fun t => t.events == [ev .rxValidate 8#16 0x40#16] && t.image == zeroImage 0x40#17) = true := by decide
/-- V2.8: action 'R' warns, moves the cursor and writes nothing; here with a rewind from 3 to 1. -/
theorem test_frame_other :
    goes (exec (.frameOther rpgm off0010 0x52#8 hex1to16 0x0D#8) (receiving 0x40#17 .rxFrame 3#16 0#6 []))
      (fun t => t.events == [ev .rxValidate 2#16 0x10#16, ev .rxRewind 3#16 1#16] && t.cursor == some 2#16
        && t.image == zeroImage 0x40#17 && t.flow == .rxAckWrite) = true := by decide
/-- V2.5, as FRAME_OTHER in TX_ECHO: the length is checked before the contents. -/
theorem test_frame_other_sent :
    status (exec (.frameOther rpgm off0010 0x52#8 hex1to16 0x0D#8)
      (sending 0x1000#17 .txEcho 0#16 [.rx (.data frameV17)])) 0x0000143F#32 = true
    ∧ status (exec (.frameOther rpgm off0010 0x52#8 hex1to16 0x0D#8)
      (sending 0x1000#17 .txEcho 0#16 [.rx (.data (frameV17.take 41))])) 0x0000123F#32 = true := by decide
/-- V2.6: the acknowledgement, and a shorter one. -/
theorem test_ack_frame :
    goes (exec (.ackFrame okAck) (sending 0x1000#17 .txAck 5#16 [])) (fun t => t.events == [] && t.sendIndex == some 6#16
      && t.flow == .txFetch) = true
    ∧ goes (exec (.ackFrame (okAck.take 4)) (sending 0x1000#17 .txAck 5#16 []))
      (fun t => t.events == [ev .txAckMismatch 4#16 5#16] && t.sendIndex == some 6#16) = true := by decide
/-- V2.8, the boundary: the cursor 4 at the capacity 0x40 ends the receive, the cursor 3 does not. -/
theorem test_ack_frame_ends_receive :
    status (exec (.ackFrame okAck) (receiving 0x40#17 .rxAckEcho 4#16 0#6 [.rx (.data okAck)])) 0x00000008#32 = true
    ∧ status (exec (.ackFrame okAck) (receiving 0x40#17 .rxAckEcho 3#16 0#6 [.rx (.data okAck)])) 0x00000005#32 = true := by decide
/-- V2.2, first row, by command. -/
theorem test_cmd_encode :
    goes (exec .cmdEncode { conf 0x1000#17 with pktBlock := some 0#16, pktData := some block1to16 })
      (fun t => t.frame == some frameV18 && t.flow == .idle) = true := by decide
/-- V2.2, last row: the contract, in IDLE. -/
theorem test_cmd_encode_range :
    status (exec .cmdEncode { conf 0x1000#17 with pktBlock := some 0x1000#16, pktData := some block1to16 }) 0x0000010F#32 = true := by
  decide
/-- V2.3: both fields fail, and the packet registers are written all the same. -/
theorem test_cmd_decode :
    goes (exec .cmdDecode { conf 0x1000#17 with frame := some (frameBytes rpgm off00G0 0x52#8 hexLower 0x0D#8) })
      (fun t => t.decStatus == some 3#8 && t.pktOffset == some 0#16 && t.pktAction == some 0x52#8
        && t.pktData == some (zeroBytes 16) && t.pktMagic == some rpgm) = true := by decide
/-- R146's example; PKT_DATA holds no value. -/
theorem test_cmd_validate :
    goes (exec .cmdValidate { conf 0x1000#17 with
      pktMagic := some rpgm, pktOffset := some 0x1000#16, pktAction := some 0x57#8 }) (fun t => t.valFlags == some 8#8) = true := by
  decide
/-- R147's example. -/
theorem test_cmd_start_send :
    goes (exec .cmdStartSend (conf 0x1000#17)) (fun t => statusWord t == 0x00000001#32 && t.sendIndex == some 0#16) = true := by
  decide
/-- V2.9, last row. -/
theorem test_cmd_start_recv :
    goes (exec .cmdStartRecv (conf 0x40#17)) (fun t => statusWord t == 0x00000005#32 && t.cursor == some 0#16
      && imageByte 0x3F t.image == some 0x00#8 && imageByte 0x40 t.image == none) = true := by decide
/-- V2.9: refused in IDLE, while busy, and in FATAL. -/
theorem test_cmd_reserved :
    refuses (exec (.cmdReserved 0x04#8) (conf 0x40#17)) .reservedCommand = true
    ∧ refuses (exec .cmdStartRecv (sending 0x40#17 .txAck 0#16 [])) .commandWhileBusy = true
    ∧ refuses (exec .cmdEncode { conf 0x40#17 with flow := .fatal }) .commandInFatal = true := by decide
/-- R29: a write of CFG_ACK sets CFG_ACK_LEN. V2.9: the refused values of CFG_CAPACITY. -/
theorem test_wr :
    goes (exec (.wr (.reg 0x05#8) (.bytes okAck)) { conf 0x40#17 with cfgAck := none, cfgAckLen := none })
      (fun t => t.cfgAck == some okAck && t.cfgAckLen == some 6#16) = true
    ∧ [0x18, 0x20000, 0, 0x10010].all
        (fun k => refuses (exec (.wr (.reg 0x02#8) (.num k)) State.reset) .illegalValue) = true := by decide
/-- V2.9: a write while busy, and of the image. -/
theorem test_wr_refused :
    refuses (exec (.wr (.reg 0x03#8) (.bytes rpgm.val)) (receiving 0x40#17 .rxFrame 0#16 0#6 [])) .configWhileBusy = true
    ∧ refuses (exec (.wr (.image 0) (.num 0)) (conf 0x40#17)) .imageReadOnly = true := by decide
/-- R141: a read returns the value, and the image byte. -/
theorem test_rd :
    goes (exec (.rd (.reg 0x01#8)) { conf 0x40#17 with flow := .doneOk })
      (fun t => t.readLog == [{ target := .reg 0x01#8, value := .num 8 }]) = true
    ∧ goes (exec (.rd (.image 2)) { conf 0x40#17 with flow := .doneOk, image := { extent := some 0x40#17, cells := [(2, 0xAA#8)] } })
      (fun t => t.readLog == [{ target := .image 2, value := .num 0xAA }]) = true := by decide
/-- V2.9: refused reads. -/
theorem test_rd_refused :
    refuses (exec (.rd (.reg 0x03#8)) State.reset) .noValue = true ∧ refuses (exec (.rd (.reg 0x00#8)) (conf 0x40#17)) .writeOnlyRegister = true
    ∧ refuses (exec (.rd (.image 0)) (receiving 0x40#17 .rxFrame 0#16 0#6 [])) .imageWhileReceiving = true
    ∧ refuses (exec (.rd (.image 0)) State.reset) .imageByteAbsent = true := by decide

/-! ### The flows' own steps (V2.6, V2.7) -/

theorem test_source_ends :
    status (step (sending 0x1000#17 .txFetch 0#16 [.src .eof])) 0x00000008#32 = true
    ∧ status (step (sending 0x1000#17 .txFetch 0#16 [.src .error])) 0x00000009#32 = true := by decide
theorem test_source_block :
    goes (step (sending 0x1000#17 .txFetch 0#16 [.src (.block block1to16)]))
      (fun t => t.txbuf == some frameV18 && t.flow == .txWrite) = true
    ∧ status (step (sending 0x20#17 .txFetch 2#16 [.src (.block (zeroBytes 16))])) 0x0000031F#32 = true
    ∧ status (step (sending 0x10000#17 .txFetch 0x1000#16 [.src (.block block1to16)])) 0x0000011F#32 = true := by decide
theorem test_adapter_write :
    status (step (sending 0x1000#17 .txWrite 0#16 [.tx (.written 42)])) 0x00000003#32 = true
    ∧ status (step (sending 0x1000#17 .txWrite 0#16 [.tx (.written 41)])) 0x0000102F#32 = true
    ∧ status (step (sending 0x1000#17 .txWrite 0#16 [.tx .error])) 0x0000112F#32 = true := by decide
theorem test_ack_read :
    goes (step (sending 0x1000#17 .txAck 5#16 [.rx .timeout])) (fun t => t.events == [ev .txAckMismatch 0#16 5#16]
      && t.sendIndex == some 6#16) = true
    ∧ status (step (sending 0x1000#17 .txAck 0#16 [.rx .error])) 0x0000214F#32 = true := by decide
theorem test_framing_counts :
    goes (step (receiving 0x40#17 .rxFrame 0#16 40#6 [.rx (.data [0x30#8])])) (fun t => t.rxCount == some 41#6
      && t.rxbuf.val.getD 40 none == some 0x30#8) = true
    ∧ goes (step (receiving 0x40#17 .rxFrame 0#16 41#6 [.rx (.data [0x30#8])])) (fun t => t.rxCount == some 42#6
      && t.rxbuf.val.getD 41 none == some 0x0D#8) = true
    ∧ goes (step (receiving 0x40#17 .rxFrame 0#16 42#6 [.rx (.data [0x30#8])])) (fun t => t.rxCount == some 42#6) = true := by decide
theorem test_framing_terminators :
    goes (step (receiving 0x40#17 .rxFrame 0#16 0#6 [.rx (.data [0x0D#8])])) (fun t => t.events == [ev .rxShortFrame 1#16 0#16]) = true
    ∧ goes (step (receiving 0x40#17 .rxFrame 0#16 42#6 [.rx (.data [0x0D#8])]))
      (fun t => t.events == [ev .rxShortFrame 43#16 0#16]) = true
    ∧ goes (step (receiving 0x40#17 .rxFrame 0#16 41#6 [.rx (.data [0x0D#8])])) (fun t => t.events == [] && t.rxCount == some 0#6
      && t.cursor == some 1#16 && imageByte 0xF t.image == some 0x10#8) = true := by decide
theorem test_framing_timeout :
    goes (step (receiving 0x40#17 .rxFrame 0#16 17#6 [.rx .timeout])) (fun t => t.events == [ev .rxIdle 17#16 0#16]
      && t.rxCount == some 17#6) = true
    ∧ goes (step { receiving 0x40#17 .rxFrame 0#16 17#6 [.rx .timeout] with params := { ackMax := 6, timeoutClearsFrame := true } })
      (fun t => t.rxCount == some 0#6) = true
    ∧ status (step (receiving 0x40#17 .rxFrame 0#16 17#6 [.rx .error])) 0x0000205F#32 = true := by decide
theorem test_reset :
    goes (step { sending 0x40#17 .txEcho 3#16 [.reset] with events := [ev .rxIdle 0#16 0#16] })
      (fun t => statusWord t == 0x00000000#32 && t.cfgMagic == none && t.events == [ev .rxIdle 0#16 0#16]) = true := by decide

/-! ### Witnesses: for each statement with hypotheses, a state and operands that meet all of them -/

/-- A checked frame in TXBUF, as every sending state of a coherent run holds. -/
def sent (f : FlowState) (inbox : List Stimulus) : State := sending 0x1000#17 f 0#16 inbox
/-- Idle, with every operand of every command. -/
def operands (block : BitVec 16) : State := { conf 0x1000#17 with
  pktMagic := some rpgm, pktOffset := some 0#16, pktAction := some 0x57#8, pktData := some block1to16, pktBlock := some block,
  frame := some frameV18 }

theorem witness_HexFieldIsBigEndian :
    (∃ c ∈ off00G0.val, hexval c = none) ∧ (∀ c ∈ off0010.val, (hexval c).isSome) := by decide
theorem witness_DecodeReadsEachField :
    (∀ k, k < 32 → (hexval (frameV18.val.getD (9 + k) 0)).isSome)
    ∧ (∃ k, k < 32 ∧ hexval ((frameBytes rpgm off0000 0x57#8 hexLower 0x0D#8).val.getD (9 + k) 0) = none)
    ∧ frameV18.val.take 41 = (frameBytes rpgm off0000 0x57#8 hex1to16 0x58#8).val.take 41 :=
  ⟨by decide, ⟨1, by decide, by decide⟩, by decide⟩
theorem witness_EncodedBlockDecodesBack :
    (0x0FFF#16).toNat ≤ 0x0FFF ∧ (0x0FFF#16).toNat * 16 < (0x10000#17).toNat
    ∧ (0#16).toNat ≤ 0x0FFF ∧ (0#16).toNat * 16 < (0x10#17).toNat := by decide
theorem witness_WriteFrameIsCanonical :
    (decodePacket frameV18 = ({ magic := rpgm, offset := 0#16, action := 0x57#8, data := block1to16 }, 0#2)
      ∧ frameV18.val.getD 8 0 = 0x57#8 ∧ frameV18.val.getD 41 0 = 0x0D#8 ∧ (0#16).toNat % 16 = 0)
    ∧ (0x0FFF#16).toNat ≤ 0x0FFF ∧ encodeFrame rpgm 0x0FFF#16 block1to16 = encodeFrame rpgm 0x0FFF#16 block1to16
    ∧ decodePacket (frameBytes rpgm off0000 0x57#8 hex1to16 0x58#8) = decodePacket frameV18 := by decide
theorem witness_EncodedInstructionDecodesBack :
    (Instr.frameWrite rpgm off0000 hex1to16 0x0D#8).wf = true ∧ (Instr.wr (.reg 0x02#8) (.num 0x10000)).wf = true := by decide
theorem witness_EveryFrameIsAnInstruction :
    frameV18.val.getD 8 0 = 0x57#8 ∧ (frameBytes rpgm off0000 0x52#8 hex1to16 0x0D#8).val.getD 8 0 ≠ 0x57#8 := by decide
theorem witness_CmdEncodeResult :
    (isBusy (operands 0x0FFF#16).flow = false ∧ (operands 0x0FFF#16).flow ≠ .fatal ∧ (operands 0x0FFF#16).pktBlock = some 0x0FFF#16
      ∧ (operands 0x0FFF#16).pktData = some block1to16 ∧ (operands 0x0FFF#16).cfgMagic = some rpgm ∧ (0x0FFF#16).toNat ≤ 0x0FFF)
    ∧ (isBusy (operands 0x1000#16).flow = false ∧ (operands 0x1000#16).flow ≠ .fatal ∧ (operands 0x1000#16).pktBlock = some 0x1000#16
      ∧ (operands 0x1000#16).pktData = some block1to16 ∧ (operands 0x1000#16).cfgMagic = some rpgm ∧ 0x0FFF < (0x1000#16).toNat)
    ∧ (isBusy State.reset.flow = false ∧ State.reset.flow ≠ .fatal ∧ State.reset.pktBlock = none) := by decide
theorem witness_CmdDecodeResult :
    (isBusy (operands 0#16).flow = false ∧ (operands 0#16).flow ≠ .fatal ∧ (operands 0#16).frame = some frameV18)
    ∧ (isBusy (conf 0x40#17).flow = false ∧ (conf 0x40#17).flow ≠ .fatal ∧ (conf 0x40#17).frame = none) := by decide
theorem witness_CmdValidateResult :
    (isBusy (operands 0#16).flow = false ∧ (operands 0#16).flow ≠ .fatal ∧ (operands 0#16).pktMagic = some rpgm
      ∧ (operands 0#16).pktOffset = some 0#16 ∧ (operands 0#16).pktAction = some 0x57#8 ∧ (operands 0#16).cfgMagic = some rpgm
      ∧ (operands 0#16).cfgCapacity = some 0x1000#17)
    ∧ (isBusy (conf 0x40#17).flow = false ∧ (conf 0x40#17).flow ≠ .fatal ∧ (conf 0x40#17).pktOffset = none) := by decide
theorem witness_CmdStartSendResult :
    (isBusy (conf 0x10#17).flow = false ∧ (conf 0x10#17).flow ≠ .fatal ∧ (conf 0x10#17).cfgCapacity.isSome
      ∧ (conf 0x10#17).cfgMagic.isSome ∧ (conf 0x10#17).cfgAck.isSome)
    ∧ (isBusy State.reset.flow = false ∧ State.reset.flow ≠ .fatal ∧ State.reset.cfgAck = none) := by decide
theorem witness_CmdStartRecvResult :
    goes (exec (.wr (.reg 0x02#8) (.num 0x10)) (conf 0x40#17)) (fun u => u == conf 0x10#17) = true
    ∧ (isBusy (conf 0x10000#17).flow = false ∧ (conf 0x10000#17).flow ≠ .fatal ∧ (conf 0x10000#17).cfgCapacity = some 0x10000#17
      ∧ (conf 0x10000#17).cfgMagic.isSome ∧ (conf 0x10000#17).cfgAck.isSome)
    ∧ (isBusy State.reset.flow = false ∧ State.reset.flow ≠ .fatal ∧ State.reset.cfgCapacity = none) := by decide
theorem witness_CommandsRefused :
    isBusy (sent .txFetch []).flow = true ∧ isBusy (receiving 0x40#17 .rxAckEcho 0#16 0#6 []).flow = true
    ∧ (raiseFatal .writeError (sent .txWrite [])).flow = .fatal
    ∧ isCommandCode 0x00#8 = false ∧ isCommandCode 0x12#8 = false ∧ isBusy State.reset.flow = false ∧ State.reset.flow ≠ .fatal
    ∧ State.reset.pktBlock = none ∧ State.reset.frame = none ∧ State.reset.pktMagic = none ∧ State.reset.cfgCapacity = none := by decide
theorem witness_ConfigurationWrites :
    isBusy State.reset.flow = false ∧ (16 % 16 = 0 ∧ 16 ≤ 16 ∧ 16 ≤ 0x10000) ∧ (0x10000 % 16 = 0 ∧ 16 ≤ 0x10000 ∧ 0x10000 ≤ 0x10000)
    ∧ ¬(0x10010 % 16 = 0 ∧ 16 ≤ 0x10010 ∧ 0x10010 ≤ 0x10000)
    ∧ (1 ≤ okAck.length ∧ okAck.length ≤ (conf 0x40#17).params.ackMax ∧ okAck.length < 0x10000) ∧ ([] : List Byte).length = 0
    ∧ isBusy (sent .txAck []).flow = true := by decide
theorem witness_PacketRegisterWrites : 0xFFFF < 0x10000 ∧ 0xFF < 0x100 ∧ okAck.length ≠ 42 := by decide
theorem witness_HostAccessesRefused :
    (0x12#8).toNat ≥ 0x12 ∧ 0x100 ≤ 0x100 ∧ ([] : List Byte).length ≠ 1 ∧ okAck.length ≠ 1
    ∧ 0x10000 ≤ 0x10000 ∧ ¬(0x18 % 16 = 0 ∧ 16 ≤ 0x18 ∧ 0x18 ≤ 0x10000)
    ∧ okAck.length ≠ 4 ∧ okAck.length ≠ 16 ∧ okAck.length ≠ 42 ∧ ([] : List Byte).length = 0
    ∧ { State.reset with params := { ackMax := 5, timeoutClearsFrame := false } }.params.ackMax < okAck.length
    ∧ (0x0C#8 ∈ [0x02#8, 0x09#8, 0x0C#8]) ∧ (0x0F#8 ∈ [0x03#8, 0x05#8, 0x08#8, 0x0B#8, 0x0F#8])
    ∧ isBusy (sent .txWrite []).flow = true
    ∧ regOf 0x11#8 = some .cursor ∧ readRegister .cursor State.reset = none
    ∧ isReceiving (receiving 0x40#17 .rxFrame 0#16 0#6 []).flow = true
    ∧ isReceiving (conf 0x40#17).flow = false ∧ imageByte 0 (conf 0x40#17).image = none
    ∧ imageByte 0x40 (zeroImage 0x40#17) = none := by decide
theorem witness_RegisterReads :
    (conf 0x10000#17).cfgCapacity.map BitVec.toNat = some 0x10000 ∧ (conf 0x40#17).cfgAck = some okAck
    ∧ (operands 0#16).frame.map Subtype.val = some frameV18.val := by decide
theorem witness_ImageReads :
    (raiseFatal .echoShort (receiving 0x40#17 .rxAckEcho 1#16 0#6 [])).flow = .fatal
    ∧ (raiseFatal .echoShort (receiving 0x40#17 .rxAckEcho 1#16 0#6 [])).image.extent = some 0x40#17 ∧ 0x3F < (0x40#17).toNat
    ∧ (receiving 0x40#17 .rxFrame 0#16 0#6 []).flow = .rxFrame ∧ (receiving 0x40#17 .rxAckWrite 0#16 0#6 []).flow = .rxAckWrite
    ∧ (receiving 0x40#17 .rxAckEcho 0#16 0#6 []).flow = .rxAckEcho := by decide
theorem witness_MemWriteReadsBack :
    (zeroImage 0x40#17).extent = some 0x40#17 ∧ (zeroImage 0x40#17).wf = true
    ∧ 0x30 + block1to16.val.length ≤ (0x40#17).toNat ∧ (0x40#17).toNat < 0x31 + block1to16.val.length
    ∧ Coherent (receiving 0x40#17 .rxFrame 0#16 41#6 [.rx (.data [0x0D#8])]) := by decide
/-- A frame at the last block, and one of another action. -/
theorem witness_AcceptedFrames :
    let s := receiving 0x40#17 .rxFrame 1#16 0#6 []
    let p : Packet := { magic := rpgm, offset := 0x30#16, action := 0x57#8, data := block1to16 }
    (s.flow = .rxFrame ∧ decodePacket (frameBytes rpgm off0030 0x57#8 hex1to16 0x0D#8) = (p, 0#2) ∧ s.cfgMagic = some rpgm
      ∧ s.cfgCapacity = some 0x40#17 ∧ capacityLegal 0x40#17 = true ∧ s.image.extent = some 0x40#17 ∧ s.image.wf = true
      ∧ s.cursor = some 1#16 ∧ hasError (validatePacket p rpgm 0x40#17) = false)
    ∧ (0x52#8 ≠ 0x57#8 ∧ decodePacket (frameBytes rpgm off0030 0x52#8 hex1to16 0x0D#8) = ({ p with action := 0x52#8 }, 0#2)
      ∧ hasError (validatePacket { p with action := 0x52#8 } rpgm 0x40#17) = false) := by decide
theorem witness_BadFrameThrownAway :
    let s := receiving 0x40#17 .rxFrame 0#16 0#6 []
    s.flow = .rxFrame ∧ (decodePacket (frameBytes rpgm off00G0 0x57#8 hex1to16 0x0D#8)).2 ≠ 0#2
    ∧ s.cfgMagic = some rpgm ∧ s.cfgCapacity = some 0x40#17
    ∧ (decodePacket (frameBytes rpgm off0040 0x57#8 hex1to16 0x0D#8)).2 = 0#2
    ∧ hasError (validatePacket (decodePacket (frameBytes rpgm off0040 0x57#8 hex1to16 0x0D#8)).1 rpgm 0x40#17) = true
    ∧ (decodePacket frameV18).2 = 0#2 ∧ hasError (validatePacket (decodePacket frameV18).1 rpgm 0x40#17) = false := by decide
theorem witness_WritePhase :
    ((sent .txWrite [.tx (.written 42)]).flow = .txWrite ∧ (sent .txWrite [.tx (.written 42)]).inbox = [.tx (.written 42)]
      ∧ (sent .txWrite []).txbuf = some frameV18)
    ∧ (sent .txWrite [.tx (.written 41)]).inbox = [.tx (.written 41)] ∧ 41 < 42
    ∧ (sent .txWrite [.tx .error]).inbox = [.tx .error]
    ∧ (receiving 0x40#17 .rxAckWrite 1#16 0#6 [.tx (.written 6)]).flow = .rxAckWrite ∧ okAck ≠ [] ∧ okAck.length = 6 ∧ 0 < okAck.length
    ∧ (receiving 0x40#17 .rxAckWrite 1#16 0#6 [.tx (.written 6)]).inbox = [.tx (.written okAck.length)]
    ∧ (receiving 0x40#17 .rxAckWrite 1#16 0#6 []).cfgAck = some okAck := by decide
theorem witness_EchoPhase :
    ((sent .txEcho [.rx (.data frameV17)]).flow = .txEcho ∧ 1 ≤ frameV17.length ∧ frameV17.length ≤ 42
      ∧ (sent .txEcho [.rx (.data frameV17)]).inbox = [.rx (.data frameV17)] ∧ (sent .txEcho []).txbuf = some frameV18)
    ∧ (1 ≤ (frameV17.take 1).length ∧ (frameV17.take 1).length ≤ 42)
    ∧ (sent .txEcho [.rx .timeout]).inbox = [.rx .timeout] ∧ (sent .txEcho [.rx .error]).inbox = [.rx .error]
    ∧ (let s := receiving 0x40#17 .rxAckEcho 4#16 0#6 [.rx (.data okAck)]
       s.flow = .rxAckEcho ∧ okAck ≠ [] ∧ s.cursor = some 4#16 ∧ s.cfgCapacity = some 0x40#17 ∧ 1 ≤ okAck.length
        ∧ s.inbox = [.rx (.data okAck)] ∧ s.cfgAck = some okAck) := by decide
theorem witness_AckReadInTxAck :
    (sent .txAck []).flow = .txAck ∧ (sent .txAck []).cfgAck = some okAck ∧ (sent .txAck []).sendIndex = some 0#16
    ∧ Coherent (sending 0x10000#17 .txAck 0x0FFF#16 []) := by decide
theorem witness_TxAckStep :
    let s := sent .txAck [.rx (.data okAck)]
    s.flow = .txAck ∧ s.cfgAck = some okAck ∧ s.cfgAckLen = some (BitVec.ofNat 16 okAck.length) ∧ okAck.length < 0x10000
    ∧ s.sendIndex = some 0#16 ∧ 1 ≤ okAck.length ∧ s.inbox = [.rx (.data okAck)]
    ∧ (sent .txAck [.rx .error]).inbox = [.rx .error] ∧ (sent .txAck [.rx .timeout]).inbox = [.rx .timeout] := by decide
theorem witness_TxFetchEnds :
    (sent .txFetch [.src .eof]).flow = .txFetch ∧ (sent .txFetch [.src .eof]).inbox = [.src .eof]
    ∧ (sent .txFetch [.src .error]).inbox = [.src .error]
    ∧ (sent .txFetch [.src (.block block1to16)]).inbox = [.src (.block block1to16)] := by decide
/-- The last index that is encoded, the first that is not, and the first offset at the capacity. -/
theorem witness_TxFetchBlock :
    [(0x0FFF#16, 0x10000#17), (0x1000#16, 0x10000#17), (2#16, 0x20#17)].all (fun x =>
      let s := sending x.2 .txFetch x.1 [.src (.block block1to16)]
      decide (s.flow = .txFetch ∧ s.inbox = [.src (.block block1to16)] ∧ s.sendIndex = some x.1 ∧ s.cfgMagic = some rpgm
        ∧ s.cfgCapacity = some x.2)) = true := by decide
theorem witness_SelfCheckOutcomes : (0x0FFF#16).toNat ≤ 0x0FFF := by decide
theorem witness_FramingGathersByte :
    [0#6, 40#6, 41#6, 42#6].all (fun n =>
      let s := receiving 0x40#17 .rxFrame 0#16 n [.rx (.data [0x30#8])]
      decide (s.flow = .rxFrame ∧ s.inbox = [.rx (.data [0x30#8])] ∧ s.rxCount = some n)) = true ∧ 0x30#8 ≠ 0x0D#8 := by decide
theorem witness_FramingEndsFrame :
    [0#6, 40#6, 41#6, 42#6].all (fun n =>
      let s := receiving 0x40#17 .rxFrame 0#16 n [.rx (.data [0x0D#8])]
      decide (s.flow = .rxFrame ∧ s.inbox = [.rx (.data [0x0D#8])] ∧ s.rxCount = some n ∧ n.toNat ≤ 42)) = true
    ∧ (receiving 0x40#17 .rxFrame 0#16 41#6 []).rxbuf.val.take 41 = (frameV18.val.take 41).map some
    ∧ frameV18.val.getD 41 0 = 0x0D#8 := by decide
theorem witness_FramingTimeoutAndError :
    let s := receiving 0x40#17 .rxFrame 0#16 17#6 [.rx .timeout]
    s.flow = .rxFrame ∧ s.inbox = [.rx .timeout] ∧ s.rxCount = some 17#6
    ∧ (receiving 0x40#17 .rxFrame 0#16 17#6 [.rx .error]).inbox = [.rx .error] := by decide
theorem witness_StepRunsDecodedInstruction :
    decode (.host (.read (.reg 0x01#8))) = .ok (.rd (.reg 0x01#8))
    ∧ (sent .txWrite [.host (.read (.reg 0x01#8))]).inbox = [.host (.read (.reg 0x01#8))]
    ∧ ((sent .txWrite [.tx .error]).flow = .txWrite ∧ answersNext (sent .txWrite [.tx .error]) = true
      ∧ (sent .txWrite [.tx .error]).txbuf = some frameV18)
    ∧ (let s := receiving 0x40#17 .rxAckWrite 1#16 0#6 [.tx (.written 6)]
       s.flow = .rxAckWrite ∧ answersNext s = true ∧ s.cfgAck = some okAck ∧ okAck ≠ [])
    ∧ (let s := sent .txAck [.rx (.data okAck)]
       s.flow = .txAck ∧ s.cfgAckLen = some 6#16 ∧ 1 ≤ okAck.length ∧ okAck.length ≤ (6#16).toNat
        ∧ s.inbox = [.rx (.data okAck)]) := by decide
theorem witness_BlockWaitsForTheOutside : (sent .txEcho []).inbox = [] := by decide
/-- A reset in the middle of a send leaves an answer that no step has met yet. -/
theorem witness_ResetLeaves :
    (sent .txEcho [.reset, .rx (.data frameV17)]).inbox = [.reset, .rx (.data frameV17)] := by decide
/-- A coherent state of each flow, with a step that goes on. -/
theorem witness_InvariantKept :
    (Coherent (sent .txWrite [.tx (.written 42)]) ∧ goes (step (sent .txWrite [.tx (.written 42)])) (fun _ => true) = true)
    ∧ Coherent (receiving 0x40#17 .rxFrame 3#16 41#6 [.rx (.data [0x0D#8])])
    ∧ goes (step (receiving 0x40#17 .rxFrame 3#16 41#6 [.rx (.data [0x0D#8])])) (fun _ => true) = true :=
  ⟨⟨by decide, by decide⟩, by decide, by decide⟩
theorem witness_AdmittedAnswersAreTaken :
    (Coherent (sent .txWrite [.tx (.written 0)]) ∧ (sent .txWrite [.tx (.written 0)]).inbox = [.tx (.written 0)]
      ∧ answerAdmitted (sent .txWrite [.tx (.written 0)]) (.tx (.written 0)) = true)
    ∧ (Coherent (sent .txFetch [.src .eof]) ∧ answerAdmitted (sent .txFetch [.src .eof]) (.src .eof) = true)
    ∧ (Coherent (receiving 0x40#17 .rxFrame 0#16 0#6 [.rx (.data [0x52#8])])
      ∧ answerAdmitted (receiving 0x40#17 .rxFrame 0#16 0#6 [.rx (.data [0x52#8])]) (.rx (.data [0x52#8])) = true) :=
  ⟨⟨by decide, by decide, by decide⟩, ⟨by decide, by decide⟩, by decide, by decide⟩
/-- A step of a flow, an answer that is refused, and a host access. -/
theorem witness_ReachableStepsNeverFault :
    (∀ a rest, (sent .txEcho [.rx (.data frameV17)]).inbox ≠ .host a :: rest)
    ∧ Coherent (sent .txEcho [.rx (.data frameV17)])
    ∧ (Coherent (sent .txEcho [.tx .error]) ∧ refuses (step (sent .txEcho [.tx .error])) .answerOutsideSignature = true)
    ∧ (Coherent (sent .txEcho [.host (.read (.reg 0x00#8))])
      ∧ refuses (step (sent .txEcho [.host (.read (.reg 0x00#8))])) .writeOnlyRegister = true) :=
  ⟨nofun, by decide, ⟨by decide, by decide⟩, by decide, by decide⟩
/-- FATAL, with a read, an answer and a reset next. -/
def failed (inbox : List Stimulus) : State := raiseFatal .writeError (sent .txWrite inbox)
theorem witness_OnlyResetLeavesFatal :
    (failed [.host (.read (.reg 0x01#8))]).flow = .fatal
    ∧ goes (step (failed [.host (.read (.reg 0x01#8))])) (fun _ => true) = true
    ∧ (failed [.tx .error]).flow = .fatal ∧ answersNext (failed [.tx .error]) = true
    ∧ (failed [.reset]).flow = .fatal ∧ (failed [.reset]).inbox = [.reset] := by decide
theorem witness_FatalEntryRecordsItsState :
    (sent .txWrite [.tx .error]).flow ≠ .fatal ∧ status (step (sent .txWrite [.tx .error])) 0x0000112F#32 = true
    ∧ goes (step (sent .txWrite [.tx (.written 42)])) (fun t => t.flow != .fatal) = true := by decide
theorem witness_ConfigurationFixedWhileBusy :
    isBusy (sent .txWrite [.tx .error]).flow = true ∧ goes (step (sent .txWrite [.tx .error])) (fun _ => true) = true := by decide
/-- The image changes in each of the three ways. -/
theorem witness_OnlyReceiveWritesImage :
    goes (step { conf 0x40#17 with image := zeroImage 0x10#17, inbox := [.reset] })
      (fun t => t.image != zeroImage 0x10#17) = true
    ∧ goes (step { conf 0x40#17 with inbox := [.host (.write (.reg 0x00#8) (.num 0x11))] })
      (fun t => t.image != State.reset.image) = true
    ∧ goes (step (receiving 0x40#17 .rxFrame 0#16 41#6 [.rx (.data [0x0D#8])])) (fun t => t.image != zeroImage 0x40#17) = true := by
  decide
theorem witness_EventStreamOnlyGrows :
    goes (step (receiving 0x40#17 .rxFrame 0#16 0#6 [.rx .timeout])) (fun _ => true) = true := by decide
theorem witness_FlowsKeepToTheirState :
    (answersNext (sent .txFetch [.src .eof]) = true ∧ goes (step (sent .txFetch [.src .eof])) (fun _ => true) = true
      ∧ isReceiving (sent .txFetch [.src .eof]).flow = false)
    ∧ (let s := receiving 0x40#17 .rxFrame 0#16 41#6 [.rx (.data [0x0D#8])]
       answersNext s = true ∧ goes (step s) (fun _ => true) = true ∧ isReceiving s.flow = true) := by decide
theorem witness_ReceiveEndsOnlyAtTheCapacity :
    let s := receiving 0x40#17 .rxAckEcho 4#16 0#6 [.rx (.data okAck)]
    isReceiving s.flow = true ∧ answersNext s = true ∧ goes (step s) (fun t => t.flow == .doneOk) = true
    ∧ goes (step (receiving 0x40#17 .rxFrame 0#16 0#6 [.rx .error])) (fun t => t.flow == .fatal) = true := by decide
theorem witness_ParametersNeverChange : goes (step State.reset) (fun _ => true) = true := by decide

end Sys2Proof.Tests
end

section
/-! PROOF. The statements of 00_scope.md: no step changes the OPEN parameters (R12), a busy block takes every answer that the port
of its access admits (R14), and the grounds on which a step is refused (R14, R39, R142, R149). -/

namespace Sys2Proof.Machine

/-! ### The OPEN parameters, outcome by outcome -/

section Parameters
variable {s u t : State}

theorem WriteOutcome.params_eq {bytes : List Byte} {after : FlowState} {a : TxAnswer} (h : WriteOutcome bytes after u a t) :
    t.params = u.params := by
  cases h <;> rfl

theorem EchoOutcome.params_eq {bytes : List Byte} {v : State} {a : RxAnswer} (h : EchoOutcome bytes v u a t)
    (hv : v.params = u.params) : t.params = u.params := by
  cases h
  case ok => exact hv
  all_goals rfl

theorem HostEffect.params_eq {i : Instr} (h : HostEffect i u t) : t.params = u.params := by
  cases h <;> rfl

theorem FrameEffect.params_eq {f : Bytes 42} (h : FrameEffect f u t) : t.params = u.params := by
  cases h
  case discard => rw [emitFlags_eq]
  all_goals rfl

theorem selfCheck_frame (f : Bytes 42) (magic : Bytes 4) (capacity : BitVec 17) (u : State) :
    (selfCheck f magic capacity u).params = u.params ∧ (selfCheck f magic capacity u).inbox = u.inbox := by
  rcases selfCheck_cases f magic capacity u with h | h | ⟨-, -, h⟩ <;> rw [h] <;> exact ⟨rfl, rfl⟩

theorem idleTimeout_frame (count : BitVec 6) (u : State) :
    (idleTimeout count u).params = u.params ∧ (idleTimeout count u).inbox = u.inbox := by
  unfold idleTimeout
  split <;> exact ⟨rfl, rfl⟩

/-- Whatever a step does, it leaves the parameters. -/
theorem Effect.params_eq (h : Effect s t) : t.params = s.params := by
  cases h
  case host h => exact h.params_eq
  case block => exact (selfCheck_frame ..).1
  case sendFrame h => exact h.params_eq
  case echoFrame h => exact h.params_eq rfl
  case framingTimeout => exact (idleTimeout_frame ..).1
  case gathered h => exact h.params_eq
  case sendAck h => exact h.params_eq
  case echoAck h => exact h.params_eq rfl
  all_goals rfl

end Parameters

/-! ### What a flow's step answers when an answer stands next -/

/-- The answers that `TxWrite` of `len` bytes admits, among all stimuli. -/
def admitsTx (len : Nat) : Stimulus → Bool
  | .tx x => txAdmits len x
  | _ => false

/-- The answers that `RxRead` of at most `max` bytes admits, among all stimuli. -/
def admitsRx (max : Nat) : Stimulus → Bool
  | .rx x => rxAdmits max x
  | _ => false

/-- The outcomes of a flow's step in the state `s`, where the answer `a` stands before `rest` in the inbox. The answer is taken, or
the access does not admit it; the two other refusals need an empty acknowledgement or an image without room for the block. -/
inductive AnswerOutcome (s : State) (a : Stimulus) (rest : List Stimulus) : Out → Prop where
  | taken (t : State) (h : t.inbox = rest) : AnswerOutcome s a rest (.next t)
  | outside (h : ConfigOk s → answerAdmitted s a = false) : AnswerOutcome s a rest (.refused .answerOutsideSignature)
  | emptyAck (hf : isBusy s.flow = true) (h : flowAck s = []) : AnswerOutcome s a rest (.refused .undecodable)
  | imageTooSmall (p : Packet) (hf : s.flow = .rxFrame) (hv : hasError (validatePacket p (flowMagic s) (flowCapacity s)) = false)
      (hm : frameImage p s.image = none) : AnswerOutcome s a rest (.refused .imageWriteOutside)

section Answers
variable {s : State} {a : Stimulus} {rest : List Stimulus}

/-! Which answers are admitted, by STATE, with the lengths the flow itself reads. -/

theorem answerAdmitted_txWrite (hf : s.flow = .txWrite) : answerAdmitted s a = admitsTx 42 a := by
  cases a <;> simp [answerAdmitted, admitsTx, hf]

theorem answerAdmitted_txEcho (hf : s.flow = .txEcho) : answerAdmitted s a = admitsRx 42 a := by
  cases a <;> simp [answerAdmitted, admitsRx, hf]

theorem answerAdmitted_rxFrame (hf : s.flow = .rxFrame) : answerAdmitted s a = admitsRx 1 a := by
  cases a <;> simp [answerAdmitted, admitsRx, hf]

/-- While busy the acknowledgement is held, and CFG_ACK_LEN is its length (10_state.md R29, R30). -/
theorem ConfigOk.ack_held (hc : ConfigOk s) (hb : isBusy s.flow = true) :
    s.cfgAck = some (flowAck s) ∧ 1 ≤ (flowAck s).length ∧ (flowAckLen s).toNat = (flowAck s).length := by
  obtain ⟨-, hack, hlen, hheld⟩ := hc
  obtain ⟨-, -, hsome⟩ := hheld hb
  obtain ⟨k, hk⟩ := Option.isSome_iff_exists.1 hsome
  simp only [hk, Option.all_some, Bool.and_eq_true, decide_eq_true_eq] at hack
  obtain ⟨⟨hpos, -⟩, hshort⟩ := hack
  rw [hk, Option.map_some] at hlen
  rw [flowAck_of_some hk, flowAckLen_of_some hlen, BitVec.toNat_ofNat, Nat.mod_eq_of_lt hshort]
  exact ⟨hk, hpos, rfl⟩

theorem answerAdmitted_txAck (hf : s.flow = .txAck) (hc : ConfigOk s) :
    answerAdmitted s a = admitsRx (flowAckLen s).toNat a := by
  obtain ⟨hk, -, hlen⟩ := hc.ack_held (by rw [hf]; rfl)
  cases a <;> simp [answerAdmitted, admitsRx, hf, hk, hlen]

theorem answerAdmitted_rxAckWrite (hf : s.flow = .rxAckWrite) (hc : ConfigOk s) :
    answerAdmitted s a = admitsTx (flowAck s).length a := by
  obtain ⟨hk, -, -⟩ := hc.ack_held (by rw [hf]; rfl)
  cases a <;> simp [answerAdmitted, admitsTx, hf, hk]

theorem answerAdmitted_rxAckEcho (hf : s.flow = .rxAckEcho) (hc : ConfigOk s) :
    answerAdmitted s a = admitsRx (flowAck s).length a := by
  obtain ⟨hk, -, -⟩ := hc.ack_held (by rw [hf]; rfl)
  cases a <;> simp [answerAdmitted, admitsRx, hf, hk]

/-! How an acknowledgement and a gathered frame run. -/

theorem exec_ackFrame (bs : List Byte) (u : State) : exec (.ackFrame bs) u = execAckFrame bs u := rfl

/-- A gathered frame leaves the inbox, or the image has no room for its block. -/
theorem processFrame_answer {f : Bytes 42} {u : State} (hf : s.flow = .rxFrame) (hinbox : u.inbox = rest)
    (hmagic : flowMagic u = flowMagic s) (hcap : flowCapacity u = flowCapacity s) (himage : u.image = s.image) :
    AnswerOutcome s a rest (processFrame f u) := by
  subst hinbox
  simp only [processFrame]
  split
  · exact .taken _ rfl
  split
  · exact .taken _ (by rw [emitFlags_eq])
  · rename_i hv
    rw [hmagic, hcap, Bool.not_eq_true] at hv
    rw [emitFlags_eq]
    unfold acceptPacket
    split
    · rename_i hm
      exact .imageTooSmall _ hf hv (himage ▸ hm)
    · exact .taken _ (by rw [emitJump_eq])

/-! The three port accesses with an answer next: none of them waits. -/

theorem answersNext_cons (hin : s.inbox = a :: rest) (ha : answersNext s = true) :
    (∃ x, a = .tx x) ∨ (∃ x, a = .rx x) ∨ ∃ x, a = .src x := by
  cases a <;> simp_all [answersNext]

variable (hin : s.inbox = a :: rest) (ha : answersNext s = true)
include hin ha

theorem txWrite_asked (bytes : List Byte) (cls : TimeoutClass) :
    (∃ x, a = .tx x ∧ txWrite bytes cls s = .answered x (afterTx bytes cls x rest s))
      ∨ txWrite bytes cls s = .outside ∧ admitsTx bytes.length a = false := by
  rcases answersNext_cons hin ha with ⟨x, rfl⟩ | ⟨x, rfl⟩ | ⟨x, rfl⟩
  · cases hx : txAdmits bytes.length x
    · exact .inr ⟨by simp [txWrite, hin, hx], hx⟩
    · exact .inl ⟨x, rfl, txWrite_answered.2 ⟨rest, hin, hx, rfl⟩⟩
  · exact .inr ⟨by simp [txWrite, hin], rfl⟩
  · exact .inr ⟨by simp [txWrite, hin], rfl⟩

theorem rxRead_asked (max : Nat) (cls : TimeoutClass) :
    (∃ x, a = .rx x ∧ rxAdmits max x = true ∧ rxRead max cls s = .answered x (afterRx max cls x rest s))
      ∨ rxRead max cls s = .outside ∧ admitsRx max a = false := by
  rcases answersNext_cons hin ha with ⟨x, rfl⟩ | ⟨x, rfl⟩ | ⟨x, rfl⟩
  · exact .inr ⟨by simp [rxRead, hin], rfl⟩
  · cases hx : rxAdmits max x
    · exact .inr ⟨by simp [rxRead, hin, hx], hx⟩
    · exact .inl ⟨x, rfl, hx, rxRead_answered.2 ⟨rest, hin, hx, rfl⟩⟩
  · exact .inr ⟨by simp [rxRead, hin], rfl⟩

theorem srcRead_asked :
    (∃ x, a = .src x ∧ srcRead s = .answered x (afterSrc x rest s)) ∨ srcRead s = .outside ∧ ∀ x, a ≠ .src x := by
  rcases answersNext_cons hin ha with ⟨x, rfl⟩ | ⟨x, rfl⟩ | ⟨x, rfl⟩
  · exact .inr ⟨by simp [srcRead, hin], nofun⟩
  · exact .inr ⟨by simp [srcRead, hin], nofun⟩
  · exact .inl ⟨x, rfl, srcRead_answered.2 ⟨rest, hin, rfl⟩⟩

/-! The two phases of the adapter (41_echo_adapter.md R102, R103). -/

theorem adapterWrite_answer {bytes : List Byte} {after : FlowState}
    (hadm : ConfigOk s → answerAdmitted s a = admitsTx bytes.length a) :
    AnswerOutcome s a rest (adapterWrite bytes after s) := by
  unfold adapterWrite
  rcases txWrite_asked hin ha bytes .write with ⟨x, -, hx⟩ | ⟨hx, hout⟩ <;> rw [hx]
  · cases x with
    | error => exact .taken _ rfl
    | written n =>
      dsimp only
      split
      · exact .taken _ rfl
      · exact .taken _ rfl
  · exact .outside fun hc => (hadm hc).trans hout

theorem adapterEcho_answer {bytes : List Byte} {onOk : State → Out}
    (hok : ∀ u, ∃ t, onOk u = .next t ∧ t.inbox = u.inbox)
    (hadm : ConfigOk s → answerAdmitted s a = admitsRx bytes.length a) :
    AnswerOutcome s a rest (adapterEcho bytes onOk s) := by
  unfold adapterEcho
  rcases rxRead_asked hin ha bytes.length .echo with ⟨x, -, -, hx⟩ | ⟨hx, hout⟩ <;> rw [hx]
  · cases x with
    | error => exact .taken _ rfl
    | timeout => exact .taken _ rfl
    | data bs =>
      dsimp only
      split
      · exact .taken _ rfl
      · split
        · obtain ⟨t, ht, hi⟩ := hok (afterRx bytes.length .echo (.data bs) rest s)
          rw [ht]
          exact .taken t hi
        · exact .taken _ rfl
  · exact .outside fun hc => (hadm hc).trans hout

/-! The step of each busy STATE. -/

theorem stepTxFetch_answer (hf : s.flow = .txFetch) : AnswerOutcome s a rest (stepTxFetch s) := by
  unfold stepTxFetch
  rcases srcRead_asked hin ha with ⟨x, -, hx⟩ | ⟨hx, hout⟩ <;> rw [hx]
  · cases x with
    | eof => exact .taken _ rfl
    | error => exact .taken _ rfl
    | block d =>
      dsimp only [sendBlock]
      split
      · exact .taken _ (selfCheck_frame ..).2
      · exact .taken _ rfl
  · exact .outside fun _ => by cases a <;> simp_all [answerAdmitted]

theorem fetchTxbuf_answer (hf : s.flow = .txWrite ∨ s.flow = .txEcho) :
    AnswerOutcome s a rest (runFetched (fetchTxbuf s)) := by
  have hlen := (flowTxbuf s).property
  rw [fetchTxbuf, fetchDecoded_frame, runFetched_run, exec_decodeFrame]
  rcases hf with hf | hf
  · rw [runFrame_txWrite _ hf]
    exact adapterWrite_answer hin ha fun _ => by rw [hlen, answerAdmitted_txWrite hf]
  · rw [runFrame_txEcho _ hf]
    exact adapterEcho_answer hin ha (fun u => ⟨_, rfl, rfl⟩) fun _ => by rw [hlen, answerAdmitted_txEcho hf]

theorem fetchCfgAck_answer (hf : s.flow = .rxAckWrite ∨ s.flow = .rxAckEcho) :
    AnswerOutcome s a rest (runFetched (fetchCfgAck s)) := by
  unfold fetchCfgAck
  by_cases hne : flowAck s = []
  · rw [hne]
    exact .emptyAck (by rcases hf with hf | hf <;> rw [hf] <;> rfl) hne
  rw [fetchDecoded_ack hne, runFetched_run, exec_ackFrame]
  rcases hf with hf | hf
  · rw [execAckFrame_rxAckWrite _ hf]
    exact adapterWrite_answer hin ha (answerAdmitted_rxAckWrite hf)
  · rw [execAckFrame_rxAckEcho _ hf]
    exact adapterEcho_answer hin ha (fun u => ⟨_, rfl, rfl⟩) (answerAdmitted_rxAckEcho hf)

theorem fetchTxAck_answer (hf : s.flow = .txAck) : AnswerOutcome s a rest (runFetched (fetchTxAck s)) := by
  unfold fetchTxAck
  rcases rxRead_asked hin ha (flowAckLen s).toNat .ack with ⟨x, -, hadm, hx⟩ | ⟨hx, hout⟩ <;> rw [hx]
  · cases x with
    | error => exact .taken _ rfl
    | timeout =>
      dsimp only
      rw [runFetched_finished, ackReceived_eq]
      exact .taken _ rfl
    | data bs =>
      have hne : bs ≠ [] := by rintro rfl; simp [rxAdmits] at hadm
      have hflow : (afterRx (flowAckLen s).toNat .ack (.data bs) rest s).flow = .txAck := hf
      dsimp only
      rw [fetchDecoded_ack hne, runFetched_run, exec_ackFrame, execAckFrame_txAck bs hflow, ackReceived_eq]
      exact .taken _ rfl
  · exact .outside fun hc => (answerAdmitted_txAck hf hc).trans hout

theorem fetchRxFrame_answer (hf : s.flow = .rxFrame) : AnswerOutcome s a rest (runFetched (fetchRxFrame s)) := by
  unfold fetchRxFrame
  rcases rxRead_asked hin ha 1 .rx with ⟨x, -, hadm, hx⟩ | ⟨hx, hout⟩ <;> rw [hx]
  · cases x with
    | error => exact .taken _ rfl
    | timeout => exact .taken _ (idleTimeout_frame ..).2
    | data bs =>
      cases bs with
      | nil => simp [rxAdmits] at hadm
      | cons b bs =>
        dsimp only
        split
        · unfold endFrame
          split
          · exact .taken _ rfl
          · have hflow : (afterRx 1 .rx (.data (b :: bs)) rest s).flow = .rxFrame := hf
            simp only [fetchDecoded_frame, runFetched_run, exec_decodeFrame, runFrame, hflow]
            exact processFrame_answer hf rfl rfl rfl rfl
        · exact .taken _ rfl
  · exact .outside fun _ => (answerAdmitted_rxFrame hf).trans hout

/-- Every answer meets one of these outcomes, in every state; a STATE without a step admits none (10_state.md R23). -/
theorem step_answer : AnswerOutcome s a rest (step s) := by
  have hflow : step s = runFetched (fetchFlow s) := by
    rcases answersNext_cons hin ha with ⟨x, rfl⟩ | ⟨x, rfl⟩ | ⟨x, rfl⟩
    · exact step_flow (.inl ⟨x, rest, hin⟩)
    · exact step_flow (.inr (.inl ⟨x, rest, hin⟩))
    · exact step_flow (.inr (.inr ⟨x, rest, hin⟩))
  rw [hflow]
  cases hf : s.flow <;> simp only [fetchFlow, hf]
  case txFetch => exact stepTxFetch_answer hin ha hf
  case txWrite => exact fetchTxbuf_answer hin ha (.inl hf)
  case txEcho => exact fetchTxbuf_answer hin ha (.inr hf)
  case txAck => exact fetchTxAck_answer hin ha hf
  case rxFrame => exact fetchRxFrame_answer hin ha hf
  case rxAckWrite => exact fetchCfgAck_answer hin ha (.inl hf)
  case rxAckEcho => exact fetchCfgAck_answer hin ha (.inr hf)
  all_goals exact .outside fun _ => by cases a <;> simp [answerAdmitted, hf]

end Answers

/-! ### In a coherent state an answer is taken or lies outside its signature -/

/-- A usable packet's block lies inside an image of the configured capacity (20_memory.md R51). -/
theorem frameImage_ne_none {p : Packet} {m : Image} {magic : Bytes 4} {capacity : BitVec 17} (he : m.extent = some capacity)
    (hc : capacityLegal capacity = true) (hv : hasError (validatePacket p magic capacity) = false) :
    frameImage p m ≠ none := by
  obtain ⟨halign, hlt⟩ := hasError_validatePacket.1 hv
  have hroom : p.offset.toNat + p.data.val.length ≤ capacity.toNat := by
    rw [p.data.property]
    exact block_inside hc halign hlt
  unfold frameImage
  split
  · simp [memWrite, he, hroom]
  · simp

/-- While the receive flow runs, the image has the capacity that the flow reads (10_state.md R30, 44_host_commands.md R148). -/
theorem Coherent.image_extent {s : State} (hs : Coherent s) (hf : s.flow = .rxFrame) :
    s.image.extent = some (flowCapacity s) ∧ capacityLegal (flowCapacity s) = true := by
  obtain ⟨-, ⟨hlegal, -, -, hheld⟩, -, ⟨-, -, hrecv⟩, -, -⟩ := hs
  obtain ⟨hext, -, -⟩ := hrecv (by rw [hf]; rfl)
  obtain ⟨hsome, -, -⟩ := hheld (by rw [hf]; rfl)
  obtain ⟨c, hc⟩ := Option.isSome_iff_exists.1 hsome
  exact ⟨by rw [hext, hc, flowCapacity_of_some hc], flowCapacity_legal hlegal⟩

/-- In a coherent state the acknowledgement is not empty and the image has room for every usable block, so an answer that is not taken
lies outside its signature. -/
theorem Coherent.answer_cases {s : State} {a : Stimulus} {rest : List Stimulus} {o : Out} (hs : Coherent s)
    (h : AnswerOutcome s a rest o) :
    (∃ t, o = .next t ∧ t.inbox = rest) ∨ o = .refused .answerOutsideSignature ∧ answerAdmitted s a = false := by
  obtain ⟨-, hconfig, -⟩ := id hs
  cases h with
  | taken t h => exact .inl ⟨t, rfl, h⟩
  | outside h => exact .inr ⟨rfl, h hconfig⟩
  | emptyAck hf h =>
    obtain ⟨-, hlen, -⟩ := hconfig.ack_held hf
    simp [h] at hlen
  | imageTooSmall p hf hv hm =>
    obtain ⟨hext, hlegal⟩ := hs.image_extent hf
    exact absurd hm (frameImage_ne_none hext hlegal hv)

/-! ### A host access is refused on the host port's own grounds -/

/-- The grounds of R142 and R149, those of a host access and of a command. -/
def hostGround : Refusal → Bool
  | .reservedRegister => true
  | .writeOnlyRegister => true
  | .readOnlyRegister => true
  | .illegalValue => true
  | .configWhileBusy => true
  | .noValue => true
  | .imageWhileReceiving => true
  | .imageByteAbsent => true
  | .imageReadOnly => true
  | .reservedCommand => true
  | .commandWhileBusy => true
  | .commandInFatal => true
  | _ => false

/-- If the outcome is a refusal, its ground is one of the host port's. -/
def OnHostGrounds : Out → Prop
  | .next _ => True
  | .fault _ => True
  | .refused r => hostGround r = true

section HostGrounds
variable {α : Type} {s : State}

theorem withOperand_onHostGrounds {o : Option α} {k : α → Out} (h : ∀ x, OnHostGrounds (k x)) :
    OnHostGrounds (withOperand o k) := by
  cases o with
  | none => rfl
  | some x => exact h x

theorem withLegal_onHostGrounds {o : Option α} {k : α → Out} (h : ∀ x, OnHostGrounds (k x)) :
    OnHostGrounds (withLegal o k) := by
  cases o with
  | none => rfl
  | some x => exact h x

theorem commandGate_onHostGrounds {k : Out} (h : OnHostGrounds k) : OnHostGrounds (commandGate s k) := by
  unfold commandGate
  split
  · rfl
  split
  · rfl
  · exact h

theorem configGate_onHostGrounds {k : Out} (h : OnHostGrounds k) : OnHostGrounds (configGate s k) := by
  unfold configGate
  split
  · rfl
  · exact h

theorem withConfig_onHostGrounds {k : BitVec 17 → Out} (h : ∀ c, OnHostGrounds (k c)) : OnHostGrounds (withConfig s k) :=
  withOperand_onHostGrounds fun c => withOperand_onHostGrounds fun _ => withOperand_onHostGrounds fun _ => h c

theorem execCmdEncode_onHostGrounds : OnHostGrounds (execCmdEncode s) := by
  refine commandGate_onHostGrounds <| withOperand_onHostGrounds fun bi => withOperand_onHostGrounds fun d =>
    withOperand_onHostGrounds fun magic => ?_
  split <;> trivial

theorem execCmdDecode_onHostGrounds : OnHostGrounds (execCmdDecode s) :=
  commandGate_onHostGrounds <| withOperand_onHostGrounds fun _ => trivial

theorem execCmdValidate_onHostGrounds : OnHostGrounds (execCmdValidate s) :=
  commandGate_onHostGrounds <| withOperand_onHostGrounds fun _ => withOperand_onHostGrounds fun _ =>
    withOperand_onHostGrounds fun _ => withOperand_onHostGrounds fun _ => withOperand_onHostGrounds fun _ => trivial

theorem issueCommand_onHostGrounds (c : Byte) : OnHostGrounds (issueCommand c s) := by
  unfold issueCommand
  split
  · exact execCmdEncode_onHostGrounds
  split
  · exact execCmdDecode_onHostGrounds
  split
  · exact execCmdValidate_onHostGrounds
  split
  · exact commandGate_onHostGrounds <| withConfig_onHostGrounds fun _ => trivial
  split
  · exact commandGate_onHostGrounds <| withConfig_onHostGrounds fun _ => trivial
  · exact commandGate_onHostGrounds rfl

theorem writeRegister_onHostGrounds (r : Reg) (v : HostValue) : OnHostGrounds (writeRegister r v s) := by
  cases r
  case cmd => exact withLegal_onHostGrounds issueCommand_onHostGrounds
  case cfgCapacity =>
    refine configGate_onHostGrounds <| withLegal_onHostGrounds fun c => ?_
    split
    · trivial
    · rfl
  case cfgMagic => exact configGate_onHostGrounds <| withLegal_onHostGrounds fun _ => trivial
  case cfgAck => exact configGate_onHostGrounds <| withLegal_onHostGrounds fun _ => trivial
  case status | cfgAckLen | decStatus | valFlags | sendIndex | cursor => rfl
  all_goals exact withLegal_onHostGrounds fun _ => trivial

theorem execWr_onHostGrounds (x : HostTarget) (v : HostValue) : OnHostGrounds (execWr x v s) := by
  unfold execWr
  split
  · rfl
  split
  · rfl
  · exact writeRegister_onHostGrounds _ v

theorem execRd_onHostGrounds (x : HostTarget) : OnHostGrounds (execRd x s) := by
  unfold execRd
  split
  · split
    · rfl
    split
    · rfl
    · trivial
  · split
    · rfl
    split
    · rfl
    · exact withOperand_onHostGrounds fun _ => trivial

/-- A host write runs as the command it spells, or as a write. -/
theorem exec_decodeWrite_onHostGrounds (x : HostTarget) (v : HostValue) : OnHostGrounds (exec (decodeWrite x v) s) := by
  unfold decodeWrite
  split
  · split
    · rw [exec_decodeCommand]
      exact issueCommand_onHostGrounds _
    · exact execWr_onHostGrounds x v
  · exact execWr_onHostGrounds x v

theorem step_onHostGrounds {a : HostAccess} {rest : List Stimulus} (hin : s.inbox = .host a :: rest) :
    OnHostGrounds (step s) := by
  unfold step fetch
  rw [hin]
  cases a with
  | read x => exact execRd_onHostGrounds x
  | write x v => exact exec_decodeWrite_onHostGrounds x v

end HostGrounds

/-! ### The steps that take no host access -/

/-- Without a host access next, a step is refused only where it meets an answer. -/
theorem step_refused_answer {s : State} {r : Refusal} (hhost : ∀ a rest, s.inbox ≠ .host a :: rest)
    (h : step s = .refused r) : ∃ a rest, AnswerOutcome s a rest (.refused r) := by
  match hin : s.inbox with
  | [] => simp [step, fetch, hin] at h
  | .host a :: rest => exact absurd hin (hhost a rest)
  | .reset :: rest => simp [step_reset hin] at h
  | .tx _ :: _ | .rx _ :: _ | .src _ :: _ => exact ⟨_, _, h ▸ step_answer hin (by simp [answersNext, hin])⟩

end Sys2Proof.Machine

namespace Sys2Proof.Proofs
open Sys2Proof.Machine

/-- Settles O50: each outcome that `Effect` lists keeps the parameters. -/
theorem parametersNeverChange : Obligations.ParametersNeverChange :=
  fun _ _ h => (step_effect h).params_eq

/-- Settles O41: in a coherent state only an answer that is not admitted is refused. -/
theorem admittedAnswersAreTaken : Obligations.AdmittedAnswersAreTaken := by
  intro s a rest hs hin hadm
  have ha : answersNext s = true := by cases a <;> simp_all [answersNext, answerAdmitted]
  rcases hs.answer_cases (step_answer hin ha) with h | ⟨-, hout⟩
  · exact h
  · rw [hadm] at hout
    cases hout

/-- Settles O42: `AnswerOutcome` has no refusal for want of a value, a coherent state leaves of its refusals only the answer outside
the signature, and a host access is refused on the host port's grounds. -/
theorem reachableStepsNeverFault : Obligations.ReachableStepsNeverFault := by
  refine ⟨fun s hhost hno => ?_, fun s hs => ⟨nofun, fun hhost r hr => ?_, fun r hr a rest hin hrefused => ?_⟩⟩
  · obtain ⟨a, rest, ho⟩ := step_refused_answer hhost hno
    cases ho
  · obtain ⟨a, rest, ho⟩ := step_refused_answer hhost hr
    rcases hs.answer_cases ho with ⟨t, ht, -⟩ | ⟨hout, -⟩
    · cases ht
    · cases hout
      rfl
  · have hground : OnHostGrounds (step s) := step_onHostGrounds hin
    rw [hrefused, OnHostGrounds] at hground
    have hflow : ∀ r ∈ [Refusal.answerOutsideSignature, .frameNotExpected, .ackNotExpected, .imageWriteOutside, .undecodable],
        hostGround r = false := by decide
    rw [hflow r hr] at hground
    cases hground

end Sys2Proof.Proofs
end

section
/-! PROOF. The statements of 10_state.md: what a step of either flow writes, the fatal fields, the event stream, IMAGE, the invariant
that every step keeps, and the host's accesses to the registers. -/

namespace Sys2Proof.Machine

/-! ### The adapter's two phases and the self-check: the caller's state or a fatal entry -/

section Outcomes
variable {s u t : State}

theorem WriteOutcome.next_or_fatal {bytes : List Byte} {after : FlowState} {a : TxAnswer} (h : WriteOutcome bytes after u a t) :
    t = { u with flow := after } ∨ ∃ c ∈ [FatalCause.writeShort, .writeError], t = raiseFatal c u := by
  cases h
  case all => exact .inl rfl
  case short => exact .inr ⟨.writeShort, by decide, rfl⟩
  case error => exact .inr ⟨.writeError, by decide, rfl⟩

theorem EchoOutcome.next_or_fatal {bytes : List Byte} {v : State} {a : RxAnswer} (h : EchoOutcome bytes v u a t) :
    t = v ∨ ∃ c ∈ [FatalCause.echoShort, .echoError, .echoMismatch], t = raiseFatal c u := by
  cases h
  case ok => exact .inl rfl
  case short | none => exact .inr ⟨.echoShort, by decide, rfl⟩
  case mismatch => exact .inr ⟨.echoMismatch, by decide, rfl⟩
  case error => exact .inr ⟨.echoError, by decide, rfl⟩

theorem selfCheck_next_or_fatal (f : Bytes 42) (magic : Bytes 4) (capacity : BitVec 17) (u : State) :
    selfCheck f magic capacity u = { u with flow := .txWrite }
      ∨ ∃ c ∈ [FatalCause.selfcheckDecode, .selfcheckInvalid], selfCheck f magic capacity u = raiseFatal c u := by
  rcases selfCheck_cases f magic capacity u with h | h | ⟨-, -, h⟩
  · exact .inr ⟨_, by decide, h⟩
  · exact .inr ⟨_, by decide, h⟩
  · exact .inl h

theorem idleTimeout_eq (count : BitVec 6) (u : State) :
    idleTimeout count u = { emit .rxIdle (count.setWidth 16) 0#16 u with
      rxCount := if u.params.timeoutClearsFrame then some 0#6 else u.rxCount } := by
  unfold idleTimeout
  split <;> rfl

/-! ### What the steps of each flow write (10_state.md R49) -/

/-- `t` is `s` but for the fields that the send flow's steps write. -/
def SendWrites (s t : State) : Prop :=
  t = { s with
    flow := t.flow, fatalState := t.fatalState, fatalCause := t.fatalCause, sendIndex := t.sendIndex, txbuf := t.txbuf,
    events := t.events, inbox := t.inbox, portLog := t.portLog }

/-- `t` is `s` but for the fields that the receive flow's steps write. -/
def ReceiveWrites (s t : State) : Prop :=
  t = { s with
    flow := t.flow, fatalState := t.fatalState, fatalCause := t.fatalCause, cursor := t.cursor, rxbuf := t.rxbuf,
    rxCount := t.rxCount, image := t.image, events := t.events, inbox := t.inbox, portLog := t.portLog }

theorem FrameEffect.receiveWrites {f : Bytes 42} (h : FrameEffect f u t) : ReceiveWrites u t := by
  cases h
  case discard => rw [emitFlags_eq]; rfl
  all_goals rfl

/-- Every step is one of these, by who acts in it: the reset, the host, or the flow that STATE names; a wait counts as the flow's. -/
inductive StepKind (s t : State) : Prop where
  | reset (rest : List Stimulus) (hi : s.inbox = .reset :: rest) (ht : t = resetBlock { s with inbox := rest })
  | host (a : HostAccess) (i : Instr) (rest : List Stimulus) (hi : s.inbox = .host a :: rest)
      (h : HostEffect i (afterHost rest s) t)
  | send (hf : isReceiving s.flow = false) (hb : isBusy t.flow = true → isBusy s.flow = true) (hw : SendWrites s t)
  | receive (hf : isReceiving s.flow = true) (hw : ReceiveWrites s t)

theorem StepKind.of_sending (hs : isBusy s.flow = true ∧ isReceiving s.flow = false) (hw : SendWrites s t) : StepKind s t :=
  .send hs.2 (fun _ => hs.1) hw

theorem Effect.step_kind (h : Effect s t) : StepKind s t := by
  cases h
  case waits =>
    cases hr : isReceiving s.flow
    · exact .send hr id rfl
    · exact .receive hr rfl
  case reset rest hi => exact .reset rest hi rfl
  case host a i rest hi _ h => exact .host a i rest hi h
  case sourceEof hf _ | sourceError hf _ | blockRange hf _ _ | ackError hf _ | ackRead hf _ _ =>
    exact .of_sending (by rw [hf]; decide) rfl
  case block rest d hf _ _ =>
    rcases selfCheck_next_or_fatal (encodeFrame (flowMagic s) (flowIndex s) d) (flowMagic s) (flowCapacity s)
      { afterSrc (.block d) rest s with txbuf := some (encodeFrame (flowMagic s) (flowIndex s) d) } with h | ⟨c, -, h⟩ <;>
      rw [h] <;> exact .of_sending (by rw [hf]; decide) rfl
  case sendFrame hf _ h =>
    rcases h.next_or_fatal with rfl | ⟨c, -, rfl⟩ <;> exact .of_sending (by rw [hf]; decide) rfl
  case echoFrame hf _ h =>
    rcases h.next_or_fatal with rfl | ⟨c, -, rfl⟩ <;> exact .of_sending (by rw [hf]; decide) rfl
  case framingError hf _ | gather hf _ _ | shortFrame hf _ _ => exact .receive (by rw [hf]; rfl) rfl
  case framingTimeout hf _ => exact .receive (by rw [hf]; rfl) (by rw [idleTimeout_eq]; rfl)
  case gathered hf _ _ h => exact .receive (by rw [hf]; rfl) h.receiveWrites
  case sendAck hf _ h => rcases h.next_or_fatal with rfl | ⟨c, -, rfl⟩ <;> exact .receive (by rw [hf]; rfl) rfl
  case echoAck hf _ h => rcases h.next_or_fatal with rfl | ⟨c, -, rfl⟩ <;> exact .receive (by rw [hf]; rfl) rfl

/-- What neither flow writes (10_state.md R49). -/
def SharedKept (s t : State) : Prop :=
  t.cfgCapacity = s.cfgCapacity ∧ t.cfgMagic = s.cfgMagic ∧ t.cfgAck = s.cfgAck ∧ t.cfgAckLen = s.cfgAckLen
    ∧ t.pktMagic = s.pktMagic ∧ t.pktOffset = s.pktOffset ∧ t.pktAction = s.pktAction ∧ t.pktData = s.pktData
    ∧ t.pktBlock = s.pktBlock ∧ t.decStatus = s.decStatus ∧ t.valFlags = s.valFlags ∧ t.frame = s.frame
    ∧ t.readLog = s.readLog ∧ t.params = s.params

theorem SendWrites.shared_kept (h : SendWrites s t) : SharedKept s t := by
  rw [h]
  exact ⟨rfl, rfl, rfl, rfl, rfl, rfl, rfl, rfl, rfl, rfl, rfl, rfl, rfl, rfl⟩

theorem ReceiveWrites.shared_kept (h : ReceiveWrites s t) : SharedKept s t := by
  rw [h]
  exact ⟨rfl, rfl, rfl, rfl, rfl, rfl, rfl, rfl, rfl, rfl, rfl, rfl, rfl, rfl⟩

theorem SendWrites.receive_kept (h : SendWrites s t) :
    t.cursor = s.cursor ∧ t.rxbuf = s.rxbuf ∧ t.rxCount = s.rxCount ∧ t.image = s.image := by
  rw [h]
  exact ⟨rfl, rfl, rfl, rfl⟩

theorem ReceiveWrites.send_kept (h : ReceiveWrites s t) : t.sendIndex = s.sendIndex ∧ t.txbuf = s.txbuf := by
  rw [h]
  exact ⟨rfl, rfl⟩

/-- While the block is busy, a host access writes packet registers and FRAME only (10_state.md R30, R33, R34). -/
theorem HostEffect.busy_writes {i : Instr} (h : HostEffect i u t) (hb : isBusy u.flow = true) :
    t = { u with
      pktMagic := t.pktMagic, pktOffset := t.pktOffset, pktAction := t.pktAction, pktData := t.pktData, pktBlock := t.pktBlock,
      frame := t.frame, readLog := t.readLog } := by
  cases h
  case read | pktMagic | pktOffset | pktAction | pktData | pktBlock | frame => rfl
  all_goals simp_all

/-! ### The FATAL fields (10_state.md R26, 60_exceptions.md R160, R161) -/

/-- R161's column "raised in", read from the STATE's side. -/
def raisedIn : FlowState → List FatalCause
  | .idle => [.encodeRange]
  | .txFetch => [.encodeRange, .selfcheckDecode, .selfcheckInvalid]
  | .txWrite => [.writeShort, .writeError]
  | .txEcho => [.echoShort, .echoError, .echoMismatch]
  | .txAck => [.ackReadError]
  | .rxFrame => [.rxReadError]
  | .rxAckWrite => [.writeShort, .writeError]
  | .rxAckEcho => [.echoShort, .echoError, .echoMismatch]
  | .doneOk => [.encodeRange]
  | .doneFail => [.encodeRange]
  | .fatal => []

theorem raisedIn_names_cause {f : FlowState} {c : FatalCause} (h : c ∈ raisedIn f) : f ≠ .fatal ∧ c ≠ .noCause := by
  constructor
  · rintro rfl
    cases h
  · rintro rfl
    cases f <;> simp [raisedIn] at h

/-- The FATAL fields stay, and so does being in FATAL. -/
def FatalKept (s t : State) : Prop :=
  (t.flow = .fatal ↔ s.flow = .fatal) ∧ t.fatalState = s.fatalState ∧ t.fatalCause = s.fatalCause

/-- FATAL is entered, with the STATE left and a cause that belongs to it. -/
def FatalEntered (s t : State) : Prop :=
  t.flow = .fatal ∧ t.fatalState = s.flow ∧ t.fatalCause ∈ raisedIn s.flow

theorem HostEffect.fatal_fields {i : Instr} (h : HostEffect i u t) : FatalKept u t ∨ FatalEntered u t := by
  cases h
  case encodeRange hb hf =>
    refine .inr ⟨rfl, rfl, ?_⟩
    cases hu : u.flow <;> simp_all [isBusy, raisedIn]
  case startSend hf _ _ _ | startRecv hf _ _ _ => exact .inl ⟨⟨nofun, fun h => absurd h hf⟩, rfl, rfl⟩
  all_goals exact .inl ⟨Iff.rfl, rfl, rfl⟩

theorem FrameEffect.fatal_fields {f : Bytes 42} (h : FrameEffect f u t) (hf : u.flow ≠ .fatal) : FatalKept u t := by
  cases h
  case decodeFail => exact ⟨Iff.rfl, rfl, rfl⟩
  case discard => rw [emitFlags_eq]; exact ⟨Iff.rfl, rfl, rfl⟩
  case accept => exact ⟨⟨nofun, fun h => absurd h hf⟩, rfl, rfl⟩

/-- Every step but a reset leaves the FATAL fields, or enters FATAL and records where from and why. -/
theorem Effect.fatal_fields (h : Effect s t) :
    (∃ rest, s.inbox = .reset :: rest ∧ t = resetBlock { s with inbox := rest }) ∨ FatalKept s t ∨ FatalEntered s t := by
  cases h
  case reset rest hi => exact .inl ⟨rest, hi, rfl⟩
  all_goals right
  case waits => exact .inl ⟨Iff.rfl, rfl, rfl⟩
  case host h => exact h.fatal_fields
  case sourceEof hf _ | sourceError hf _ | ackRead hf _ _ => exact .inl ⟨by simp [hf], rfl, rfl⟩
  case blockRange hf _ _ | ackError hf _ | framingError hf _ => exact .inr ⟨rfl, rfl, by simp [hf, raisedIn]⟩
  case block hf _ _ =>
    rcases selfCheck_next_or_fatal _ _ _ _ with h | ⟨c, hc, h⟩ <;> rw [h]
    · exact .inl ⟨by simp [hf], rfl, rfl⟩
    · exact .inr ⟨rfl, rfl, by rw [hf]; exact List.mem_cons_of_mem _ hc⟩
  case sendFrame hf _ h | sendAck hf _ h =>
    rcases h.next_or_fatal with rfl | ⟨c, hc, rfl⟩
    · exact .inl ⟨by simp [hf], rfl, rfl⟩
    · exact .inr ⟨rfl, rfl, by rw [hf]; exact hc⟩
  case echoFrame hf _ h =>
    rcases h.next_or_fatal with rfl | ⟨c, hc, rfl⟩
    · exact .inl ⟨by simp [hf], rfl, rfl⟩
    · exact .inr ⟨rfl, rfl, by rw [hf]; exact hc⟩
  case echoAck hf _ h =>
    rcases h.next_or_fatal with rfl | ⟨c, hc, rfl⟩
    · exact .inl ⟨by rw [hf]; dsimp only; split <;> simp, rfl, rfl⟩
    · exact .inr ⟨rfl, rfl, by rw [hf]; exact hc⟩
  case framingTimeout => rw [idleTimeout_eq]; exact .inl ⟨Iff.rfl, rfl, rfl⟩
  case gather | shortFrame => exact .inl ⟨Iff.rfl, rfl, rfl⟩
  case gathered hf _ _ h => exact .inl (h.fatal_fields fun hfatal => nomatch hf.symm.trans hfatal)

/-! ### The event stream (10_state.md R43) -/

theorem HostEffect.events_eq {i : Instr} (h : HostEffect i u t) : t.events = u.events := by
  cases h <;> rfl

theorem FrameEffect.events_grow {f : Bytes 42} (h : FrameEffect f u t) : ∃ es, t.events = u.events ++ es := by
  cases h
  case discard => rw [emitFlags_eq]; exact ⟨_, rfl⟩
  all_goals exact ⟨_, rfl⟩

/-- Every outcome of a step leaves the events, or appends to them. -/
theorem Effect.events_grow (h : Effect s t) : ∃ es, t.events = s.events ++ es := by
  have hsame : ∃ es, s.events = s.events ++ es := ⟨[], (List.append_nil _).symm⟩
  cases h
  case host h => rw [h.events_eq]; exact hsame
  case block => rcases selfCheck_next_or_fatal _ _ _ _ with h | ⟨c, -, h⟩ <;> rw [h] <;> exact hsame
  case sendFrame h | sendAck h => rcases h.next_or_fatal with rfl | ⟨c, -, rfl⟩ <;> exact hsame
  case echoFrame h => rcases h.next_or_fatal with rfl | ⟨c, -, rfl⟩ <;> exact hsame
  case echoAck h => rcases h.next_or_fatal with rfl | ⟨c, -, rfl⟩ <;> exact hsame
  case framingTimeout => rw [idleTimeout_eq]; exact ⟨_, rfl⟩
  case ackRead | shortFrame => exact ⟨_, rfl⟩
  case gathered h => exact h.events_grow
  all_goals exact hsame

/-! ### IMAGE (20_memory.md R52) -/

/-- Of the host's accesses only CMD_START_RECV makes an image (44_host_commands.md R148). -/
theorem HostEffect.image_cases {i : Instr} (h : HostEffect i u t) :
    t.image = u.image ∨ i = .cmdStartRecv ∧ isBusy u.flow = false ∧ t.flow = .rxFrame
      ∧ ∃ c, u.cfgCapacity = some c ∧ t.image = zeroImage c := by
  cases h
  case startRecv c _ _ hi hb _ hc _ _ => exact .inr ⟨hi, hb, rfl, c, hc, rfl⟩
  all_goals exact .inl rfl

theorem frameImage_eq_some {p : Packet} {m m' : Image} (h : frameImage p m = some m') :
    m' = m ∨ p.action = 0x57#8 ∧ memWrite p.offset.toNat p.data.val m = some m' := by
  unfold frameImage at h
  split at h
  · exact .inr ⟨‹_›, h⟩
  · cases h; exact .inl rfl

/-- Of the gathered frames only an accepted write frame writes the image (43_receive_flow.md R133). -/
theorem FrameEffect.image_cases {f : Bytes 42} (h : FrameEffect f u t) :
    t.image = u.image ∨ (decodePacket f).2 = 0#2 ∧ (decodePacket f).1.action = 0x57#8 ∧ t.flow = .rxAckWrite
      ∧ memWrite (decodePacket f).1.offset.toNat (decodePacket f).1.data.val u.image = some t.image := by
  cases h
  case decodeFail => exact .inl rfl
  case discard => rw [emitFlags_eq]; exact .inl rfl
  case accept img hd _ hi =>
    rcases frameImage_eq_some hi with h | ⟨ha, hw⟩
    · exact .inl h
    · exact .inr ⟨hd, ha, rfl, hw⟩

/-- The terminator is stored behind the 41 gathered bytes. -/
theorem flowRxbuf_rxStore_take (s : State) (b : Byte) :
    (flowRxbuf { s with rxbuf := rxStore s.rxbuf 41 b }).val.take 41 = (flowRxbuf s).val.take 41 := by
  apply List.ext_getElem
  · simp [flowRxbuf, rxStore]
  · intro n h _
    have hn : n < 41 := by simp at h; exact h.1
    simp [flowRxbuf, rxStore, List.getElem_set_ne (show 41 ≠ n by omega)]

end Outcomes

/-! ### The invariant, part by part -/

section Invariant
variable {s u t : State}

theorem HostEffect.configOk {i : Instr} (h : HostEffect i u t) (hu : ConfigOk u) : ConfigOk t := by
  obtain ⟨hlegal, hacks, hlens, hheld⟩ := id hu
  cases h
  case capacity hb hc => exact ⟨hc, hacks, hlens, fun h => nomatch hb.symm.trans h⟩
  case magic hb => exact ⟨hlegal, hacks, hlens, fun h => nomatch hb.symm.trans h⟩
  case ack hb ha => exact ⟨hlegal, by simpa [and_assoc] using ha, rfl, fun h => nomatch hb.symm.trans h⟩
  case startSend hc hm ha | startRecv hc hm ha => exact ⟨hlegal, hacks, hlens, fun _ => by simp [hc, hm, ha]⟩
  case encodeRange => exact ⟨hlegal, hacks, hlens, nofun⟩
  all_goals exact hu

theorem HostEffect.flagsOk {i : Instr} (h : HostEffect i u t) (hu : FlagsOk u) : FlagsOk t := by
  obtain ⟨hdec, hval⟩ := id hu
  cases h
  case decode => exact ⟨by simp; omega, hval⟩
  case validate => exact ⟨hdec, by simp; omega⟩
  all_goals exact hu

theorem isBusy_of_isReceiving {f : FlowState} (h : isReceiving f = true) : isBusy f = true := by
  revert h
  cases f <;> decide

/-- Outside the send flow its part of the invariant is the index's range. -/
theorem SendOk.of_not_sending (hi : s.sendIndex.all fun i => i.toNat ≤ 0x1000)
    (hf : isBusy s.flow = true → isReceiving s.flow = true) : SendOk s := by
  have hno : s.flow ∉ [FlowState.txFetch, .txWrite, .txEcho, .txAck] := by
    cases hflow : s.flow <;> simp_all [isBusy, isReceiving]
  simp only [List.mem_cons, List.not_mem_nil, or_false, not_or] at hno
  exact ⟨hi, by simp [hno], by simp [hno], by simp [hno]⟩

/-- Outside the receive flow its part of the invariant is the ranges of the cursor and the count. -/
theorem ReceiveOk.of_not_receiving (hc : s.cursor.all fun c => c.toNat ≤ 0x1000) (hn : s.rxCount.all fun n => n.toNat ≤ 42)
    (hf : isReceiving s.flow = false) : ReceiveOk s :=
  ⟨hc, hn, fun h => nomatch hf.symm.trans h⟩

/-- A reset leaves a coherent state, whatever it interrupts (70_reset_and_hazards.md R176). -/
theorem coherent_resetBlock (s : State) : Coherent (resetBlock s) :=
  ⟨⟨⟨nofun, fun h => absurd rfl h⟩, fun _ => rfl, nofun⟩, ⟨rfl, rfl, rfl, nofun⟩, .of_not_sending rfl nofun,
    .of_not_receiving rfl rfl rfl, ⟨rfl, rfl⟩, reset_image_wf, rfl⟩

theorem HostEffect.sendOk {i : Instr} (h : HostEffect i u t) (hu : SendOk u) : SendOk t := by
  obtain ⟨hindex, -⟩ := id hu
  cases h
  case capacity hb _ | magic hb | ack hb _ => exact .of_not_sending hindex fun h => nomatch hb.symm.trans h
  case encodeRange => exact .of_not_sending hindex nofun
  case startSend => exact ⟨rfl, fun _ => rfl, by simp, by simp⟩
  case startRecv => exact .of_not_sending hindex fun _ => rfl
  all_goals exact hu

theorem rxbufHolds_iff {n : BitVec 6} :
    rxbufHolds s n = true ↔ ∀ i (h : i < s.rxbuf.val.length), i < n.toNat → i < 41 → (s.rxbuf.val[i]).isSome = true := by
  simp only [rxbufHolds, List.all_eq_true, List.mem_take_iff_getElem]
  constructor
  · intro h i hi hn h41
    exact h _ ⟨i, by omega, rfl⟩
  · rintro h _ ⟨i, hi, rfl⟩
    exact h i (by omega) (by omega) (by omega)

theorem rxbufHolds_zero : rxbufHolds s 0#6 = true := rfl

/-- A gathered byte is stored before it is counted (43_receive_flow.md R126). -/
theorem rxbufHolds_gatherByte {n : BitVec 6} (b : Byte) (hn : n.toNat ≤ 42) (h : rxbufHolds s n = true) :
    rxbufHolds (gatherByte b n s) (if n < 42#6 then n + 1#6 else 42#6) = true := by
  rw [rxbufHolds_iff] at h ⊢
  by_cases h41 : n < 41#6
  · have h42 : n < 42#6 := by bv_omega
    intro i hi hlt _
    rw [if_pos h42] at hlt
    simp only [gatherByte, if_pos h41, rxStore, List.getElem_set]
    split
    · rfl
    · exact h i _ (by bv_omega) (by omega)
  · simp only [gatherByte, if_neg h41]
    intro i hi _ hi41
    exact h i hi (by bv_omega) hi41

theorem HostEffect.receiveOk {i : Instr} (h : HostEffect i u t) (hu : ReceiveOk u) (hconfig : ConfigOk u) : ReceiveOk t := by
  obtain ⟨hcursor, hcount, -⟩ := id hu
  obtain ⟨hlegal, -⟩ := hconfig
  cases h
  case capacity hb _ =>
    exact .of_not_receiving hcursor hcount (Bool.eq_false_iff.2 fun hr => nomatch hb.symm.trans (isBusy_of_isReceiving hr))
  case encodeRange | startSend => exact .of_not_receiving hcursor hcount rfl
  case startRecv c _ _ _ _ _ hc _ _ =>
    have hpos : 0 < c.toNat := by
      rw [hc, Option.all_some, capacityLegal_iff] at hlegal
      omega
    exact ⟨rfl, rfl, fun _ => ⟨hc.symm, rxbufHolds_zero, by simp [cursorInside, hc, hpos]⟩⟩
  all_goals exact hu

/-- A block that passes its self-check is a checked frame, whose index is below 0x1000 (42_send_flow.md R111, R112). -/
theorem SendOk.of_selfCheck {f : Bytes 42} {i : BitVec 16} (hi : u.sendIndex = some i) (hle : i.toNat ≤ 0x0FFF)
    (hf : u.txbuf = some f) (hm : u.cfgMagic.isSome) (hc : u.cfgCapacity.isSome) :
    SendOk (selfCheck f (flowMagic u) (flowCapacity u) u) := by
  obtain ⟨magic, hm⟩ := Option.isSome_iff_exists.1 hm
  obtain ⟨capacity, hc⟩ := Option.isSome_iff_exists.1 hc
  have hindex : u.sendIndex.all fun i => i.toNat ≤ 0x1000 := by simp [hi]; omega
  rw [flowMagic_of_some hm, flowCapacity_of_some hc]
  rcases selfCheck_cases f magic capacity u with h | h | ⟨hd, hv, h⟩ <;> rw [h]
  · exact .of_not_sending hindex nofun
  · exact .of_not_sending hindex nofun
  · exact ⟨hindex, nofun, fun _ => by simp [hi, hle], fun _ => by simp [hf, frameChecked, hm, hc, hd, hv]⟩

/-- Every step keeps the send flow's part: the index holds while a block is on its way, and only a checked frame is sent. -/
theorem Effect.sendOk (h : Effect s t) (hs : SendOk s) (hconfig : ConfigOk s) : SendOk t := by
  obtain ⟨hindex, hfetch, hblock, hframe⟩ := id hs
  have hreceiving : s.flow = .rxFrame → isReceiving s.flow = true := fun h => by rw [h]; rfl
  cases h
  case waits => exact hs
  case reset => obtain ⟨-, -, hreset, -⟩ := coherent_resetBlock _; exact hreset
  case host h => exact h.sendOk hs
  case sourceEof | sourceError | blockRange | ackError | framingError => exact .of_not_sending hindex nofun
  case block rest d hf _ hle =>
    obtain ⟨i, hi⟩ := Option.isSome_iff_exists.1 (hfetch hf)
    obtain ⟨-, -, -, hheld⟩ := hconfig
    obtain ⟨hcap, hmagic, -⟩ := hheld (by rw [hf]; rfl)
    rw [flowIndex_of_some hi] at hle
    exact .of_selfCheck (u := { afterSrc (.block d) rest s with txbuf := some (encodeFrame (flowMagic s) (flowIndex s) d) })
      hi hle rfl hmagic hcap
  case sendFrame hf _ h =>
    rcases h.next_or_fatal with rfl | ⟨c, -, rfl⟩
    · exact ⟨hindex, nofun, fun _ => hblock (.inl hf), fun _ => hframe (.inl hf)⟩
    · exact .of_not_sending hindex nofun
  case echoFrame hf _ h =>
    rcases h.next_or_fatal with rfl | ⟨c, -, rfl⟩
    · exact ⟨hindex, nofun, fun _ => hblock (.inr (.inl hf)), by simp⟩
    · exact .of_not_sending hindex nofun
  case ackRead hf _ _ =>
    obtain ⟨i, hi, hle⟩ := (Option.any_eq_true _ _).1 (hblock (.inr (.inr hf)))
    have hnext : (i + 1#16).toNat ≤ 0x1000 := by
      have hlt : i.toNat ≤ 0x0FFF := of_decide_eq_true hle
      bv_omega
    rw [flowIndex_of_some hi]
    exact ⟨by simpa using hnext, fun _ => rfl, by simp, by simp⟩
  case framingTimeout hf _ => rw [idleTimeout_eq]; exact .of_not_sending hindex fun _ => hreceiving hf
  case gather hf _ _ | shortFrame hf _ _ => exact .of_not_sending hindex fun _ => hreceiving hf
  case gathered hf _ _ h =>
    cases h
    case decodeFail => exact .of_not_sending hindex fun _ => hreceiving hf
    case discard => rw [emitFlags_eq]; exact .of_not_sending hindex fun _ => hreceiving hf
    case accept => exact .of_not_sending hindex fun _ => rfl
  case sendAck h =>
    rcases h.next_or_fatal with rfl | ⟨c, -, rfl⟩
    · exact .of_not_sending hindex fun _ => rfl
    · exact .of_not_sending hindex nofun
  case echoAck h =>
    rcases h.next_or_fatal with rfl | ⟨c, -, rfl⟩
    · exact .of_not_sending hindex (by dsimp only; split <;> simp [isBusy, isReceiving])
    · exact .of_not_sending hindex nofun

/-- An accepted packet's next block index lies inside the capacity (43_receive_flow.md R135, R138). -/
theorem nextCursor_inside {offset : BitVec 16} {capacity : BitVec 17} (hc : capacityLegal capacity = true)
    (ha : offset.toNat % 16 = 0) (hlt : offset.toNat < capacity.toNat) :
    ((offset >>> 4) + 1#16).toNat ≤ 0x1000 ∧ ((offset >>> 4) + 1#16).toNat * 16 ≤ capacity.toNat := by
  have h16 := block_inside hc ha hlt
  rw [capacityLegal_iff] at hc
  have hnext : ((offset >>> 4) + 1#16).toNat = offset.toNat / 16 + 1 := by
    rw [BitVec.toNat_add, BitVec.toNat_ushiftRight, Nat.shiftRight_eq_div_pow]
    simp; omega
  omega

theorem cursorInside_iff {c : BitVec 16} {capacity : BitVec 17} (h : s.cfgCapacity = some capacity) :
    cursorInside s c = true ↔ c.toNat * 16 ≤ capacity.toNat ∧ (s.flow = .rxFrame → c.toNat * 16 < capacity.toNat) := by
  simp only [cursorInside, h, Option.all_some, Bool.and_eq_true, Bool.or_eq_true, decide_eq_true_eq, bne_iff_ne, Ne, imp_iff_not_or]

/-- With the count at 0, RXBUF may hold anything. -/
theorem ReceiveOk.clear_count (hs : ReceiveOk s) (buf : RxBuffer) : ReceiveOk { s with rxbuf := buf, rxCount := some 0#6 } := by
  obtain ⟨hcursor, -, hheld⟩ := hs
  refine ⟨hcursor, rfl, fun hr => ?_⟩
  obtain ⟨hext, -, hinside⟩ := hheld hr
  exact ⟨hext, rxbufHolds_zero, hinside⟩

/-- A receive STATE goes on to any STATE, but to RX_FRAME only before the capacity (43_receive_flow.md R138). -/
theorem ReceiveOk.set_flow (hs : ReceiveOk s) (hconfig : ConfigOk s) (hr : isReceiving s.flow = true) (f : FlowState)
    (h : f = .rxFrame → (flowCursor s).toNat * 16 < (flowCapacity s).toNat) : ReceiveOk { s with flow := f } := by
  obtain ⟨hcursor, hcount, hheld⟩ := hs
  obtain ⟨-, -, -, hconf⟩ := hconfig
  obtain ⟨hsome, -, -⟩ := hconf (isBusy_of_isReceiving hr)
  obtain ⟨capacity, hcap⟩ := Option.isSome_iff_exists.1 hsome
  obtain ⟨hext, hbuf, hinside⟩ := hheld hr
  obtain ⟨c, hc, hin⟩ := (Option.any_eq_true _ _).1 hinside
  obtain ⟨hle, -⟩ := (cursorInside_iff hcap).1 hin
  rw [flowCursor_of_some hc, flowCapacity_of_some hcap] at h
  have hin' := (cursorInside_iff (s := { s with flow := f }) hcap).2 ⟨hle, h⟩
  exact ⟨hcursor, hcount, fun _ => ⟨hext, hbuf, (Option.any_eq_true _ _).2 ⟨c, hc, hin'⟩⟩⟩

theorem frameImage_extent {p : Packet} {m m' : Image} (h : frameImage p m = some m') : m'.extent = m.extent := by
  rcases frameImage_eq_some h with rfl | ⟨-, hw⟩
  · rfl
  · exact memWrite_extent hw

theorem FrameEffect.receiveOk {f : Bytes 42} (h : FrameEffect f u t) (hu : ReceiveOk u) (hconfig : ConfigOk u)
    (hf : u.flow = .rxFrame) : ReceiveOk t := by
  obtain ⟨-, hcount, hheld⟩ := id hu
  cases h
  case decodeFail => exact hu
  case discard => rw [emitFlags_eq]; exact hu
  case accept img hd hv hi =>
    obtain ⟨hlegal, -, -, hconf⟩ := hconfig
    obtain ⟨hext, hbuf, -⟩ := hheld (by rw [hf]; rfl)
    obtain ⟨hsome, -, -⟩ := hconf (by rw [hf]; rfl)
    obtain ⟨capacity, hc⟩ := Option.isSome_iff_exists.1 hsome
    rw [flowCapacity_of_some hc] at hv
    obtain ⟨ha, hlt⟩ := hasError_validatePacket.1 hv
    rw [hc] at hlegal
    obtain ⟨hrange, hinside⟩ := nextCursor_inside hlegal ha hlt
    refine ⟨by simpa using hrange, hcount, fun _ => ⟨(frameImage_extent hi).trans hext, hbuf, ?_⟩⟩
    refine (cursorInside_iff (capacity := capacity) ?_).2 ⟨hinside, nofun⟩
    exact hc

/-- Every step keeps the receive flow's part: the counted bytes are held, and the cursor stays inside the capacity. -/
theorem Effect.receiveOk (h : Effect s t) (hs : ReceiveOk s) (hconfig : ConfigOk s) : ReceiveOk t := by
  obtain ⟨hcursor, hcount, hheld⟩ := id hs
  cases h
  case waits => exact hs
  case reset => obtain ⟨-, -, -, hreset, -⟩ := coherent_resetBlock _; exact hreset
  case host h => exact h.receiveOk hs hconfig
  case sourceEof | sourceError | blockRange | ackError | framingError | ackRead => exact .of_not_receiving hcursor hcount rfl
  case block =>
    rcases selfCheck_next_or_fatal _ _ _ _ with h | ⟨c, -, h⟩ <;> rw [h] <;> exact .of_not_receiving hcursor hcount rfl
  case sendFrame h => rcases h.next_or_fatal with rfl | ⟨c, -, rfl⟩ <;> exact .of_not_receiving hcursor hcount rfl
  case echoFrame h => rcases h.next_or_fatal with rfl | ⟨c, -, rfl⟩ <;> exact .of_not_receiving hcursor hcount rfl
  case framingTimeout =>
    unfold idleTimeout
    split
    · exact hs.clear_count s.rxbuf
    · exact hs
  case gather b hf _ _ =>
    obtain ⟨hext, hbuf, hinside⟩ := hheld (by rw [hf]; rfl)
    obtain ⟨n, hn, hholds⟩ := (Option.any_eq_true _ _).1 hbuf
    rw [hn, Option.all_some, decide_eq_true_eq] at hcount
    rw [flowCount_of_some hn]
    refine ⟨hcursor, ?_, fun _ => ⟨hext, rxbufHolds_gatherByte b hcount hholds, hinside⟩⟩
    simp only [gatherByte, Option.all_some, decide_eq_true_eq]
    split <;> bv_omega
  case shortFrame => exact hs.clear_count s.rxbuf
  case gathered hf _ _ h => exact h.receiveOk (hs.clear_count _) hconfig hf
  case sendAck hf _ h =>
    rcases h.next_or_fatal with rfl | ⟨c, -, rfl⟩
    · exact hs.set_flow hconfig (by rw [hf]; rfl) .rxAckEcho nofun
    · exact .of_not_receiving hcursor hcount rfl
  case echoAck hf _ h =>
    rcases h.next_or_fatal with rfl | ⟨c, -, rfl⟩
    · refine hs.set_flow hconfig (by rw [hf]; rfl) _ fun hnext => ?_
      split at hnext
      · cases hnext
      · omega
    · exact .of_not_receiving hcursor hcount rfl

theorem Effect.configOk (h : Effect s t) (hs : ConfigOk s) : ConfigOk t := by
  obtain ⟨hlegal, hacks, hlens, hheld⟩ := id hs
  rcases h.step_kind with ⟨rest, -, rfl⟩ | ⟨a, i, rest, -, h⟩ | ⟨-, hb, hw⟩ | ⟨hr, hw⟩
  · obtain ⟨-, hreset, -⟩ := coherent_resetBlock _; exact hreset
  · exact h.configOk hs
  · rw [hw]; exact ⟨hlegal, hacks, hlens, fun h => hheld (hb h)⟩
  · rw [hw]; exact ⟨hlegal, hacks, hlens, fun _ => hheld (isBusy_of_isReceiving hr)⟩

theorem Effect.flagsOk (h : Effect s t) (hs : FlagsOk s) : FlagsOk t := by
  rcases h.step_kind with ⟨rest, -, rfl⟩ | ⟨a, i, rest, -, h⟩ | ⟨-, -, hw⟩ | ⟨-, hw⟩
  · obtain ⟨-, -, -, -, hreset, -⟩ := coherent_resetBlock _; exact hreset
  · exact h.flagsOk hs
  · rw [hw]; exact hs
  · rw [hw]; exact hs

theorem Effect.fatalFieldsOk (h : Effect s t) (hs : FatalFieldsOk s) : FatalFieldsOk t := by
  obtain ⟨hcause, hidle, hnot⟩ := hs
  rcases h.fatal_fields with ⟨rest, -, rfl⟩ | ⟨hflow, hstate, hc⟩ | ⟨hflow, hstate, hc⟩
  · obtain ⟨hreset, -⟩ := coherent_resetBlock _; exact hreset
  · rw [FatalFieldsOk, hflow, hstate, hc]
    exact ⟨hcause, fun h => hidle fun hf => h (hflow.2 hf), hnot⟩
  · obtain ⟨hfrom, hnamed⟩ := raisedIn_names_cause hc
    exact ⟨iff_of_true hflow hnamed, fun h => absurd hflow h, hstate ▸ hfrom⟩

end Invariant

/-! ### The host's accesses to the registers (44_host_commands.md R141) -/

section Registers
variable {s : State} {n : BitVec 8} {r : Reg}

theorem exec_wr (hr : regOf n = some r) (v : HostValue) : exec (.wr (.reg n) v) s = writeRegister r v s := by
  simp only [exec, execWr, hr]

theorem exec_rd {v : HostValue} (hr : regOf n = some r) (hv : readRegister r s = some v) :
    exec (.rd (.reg n)) s = .next (hostReply (.reg n) v s) := by
  have hcmd : r ≠ .cmd := by rintro rfl; cases hv
  simp only [exec, execRd, hr, if_neg hcmd, hv, withOperand_some]

theorem configGate_open (hb : isBusy s.flow = false) (k : Out) : configGate s k = k := by simp [configGate, hb]
theorem configGate_busy (hb : isBusy s.flow = true) (k : Out) : configGate s k = .refused .configWhileBusy := by
  simp [configGate, hb]

end Registers

/-! ### STATUS and the error class of a flags event (10_state.md R26, 60_exceptions.md R158) -/

/-- Bits 2 and 3, the error class of the flags, as one field (40_codec.md R98). -/
theorem extractLsb'_two_two_eq_zero (a : BitVec 16) :
    a.extractLsb' 2 2 = 0#2 ↔ a.getLsbD 2 = false ∧ a.getLsbD 3 = false := by
  rw [BitVec.eq_of_getLsbD_eq_iff]
  constructor
  · intro h
    exact ⟨by simpa using h 0 (by decide), by simpa using h 1 (by decide)⟩
  · rintro ⟨h2, h3⟩ i hi
    obtain rfl | rfl : i = 0 ∨ i = 1 := by omega
    · simpa using h2
    · simpa using h3

open BitVec in
theorem statusWord_fields (s : State) :
    (statusWord s).extractLsb' 0 4 = flowCode s.flow ∧ (statusWord s).extractLsb' 4 4 = flowCode s.fatalState
    ∧ (statusWord s).extractLsb' 8 8 = causeCode s.fatalCause ∧ (statusWord s).extractLsb' 16 16 = 0#16 := by
  refine ⟨?_, ?_, ?_, ?_⟩ <;> rw [statusWord]
  · rw [extractLsb'_append_eq_of_add_le (by omega), extractLsb'_append_eq_of_add_le (by omega),
      extractLsb'_append_eq_of_add_le (by omega), extractLsb'_eq_self]
  · rw [extractLsb'_append_eq_of_add_le (by omega), extractLsb'_append_eq_of_add_le (by omega),
      extractLsb'_append_eq_of_le (by omega), extractLsb'_eq_self]
  · rw [extractLsb'_append_eq_of_add_le (by omega), extractLsb'_append_eq_of_le (by omega), extractLsb'_eq_self]
  · rw [extractLsb'_append_eq_of_le (by omega), extractLsb'_eq_self]

end Sys2Proof.Machine

namespace Sys2Proof.Proofs
open Sys2Proof.Machine

/-- Settles O44: a step keeps the FATAL fields or enters FATAL from the STATE it records, on a cause that `raisedIn` lists. -/
theorem fatalEntryRecordsItsState : Obligations.FatalEntryRecordsItsState := by
  intro s t h hs hr
  rcases (step_effect h).fatal_fields with ⟨rest, hi, -⟩ | ⟨hflow, hstate, hcause⟩ | ⟨hflow, hstate, hcause⟩
  · exact absurd hi (hr rest)
  · exact ⟨fun _ => ⟨hstate, hcause⟩, fun hf => absurd (hflow.1 hf) hs⟩
  · refine ⟨fun hf => absurd hflow hf, fun _ => ⟨hstate, ?_⟩⟩
    revert hcause
    cases s.flow <;> simp [raisedIn]

/-- Settles O45: the flows write no configuration, and the host's writes of it are refused while busy. -/
theorem configurationFixedWhileBusy : Obligations.ConfigurationFixedWhileBusy := by
  intro s t hb h hr
  rcases (step_effect h).step_kind with ⟨rest, hi, -⟩ | ⟨a, i, rest, -, h⟩ | ⟨-, -, hw⟩ | ⟨-, hw⟩
  · exact absurd hi (hr rest)
  · rw [h.busy_writes hb]
    exact ⟨rfl, rfl, rfl, rfl⟩
  · obtain ⟨hcap, hmagic, hack, hlen, -⟩ := hw.shared_kept
    exact ⟨hcap, hmagic, hack, hlen⟩
  · obtain ⟨hcap, hmagic, hack, hlen, -⟩ := hw.shared_kept
    exact ⟨hcap, hmagic, hack, hlen⟩

/-- Settles O46: of a step's outcomes only the reset, CMD_START_RECV and the accepted write frame have another image. -/
theorem onlyReceiveWritesImage : Obligations.OnlyReceiveWritesImage := by
  intro s t h hne
  cases step_effect h
  case reset rest hi => exact .inl ⟨rest, hi, rfl⟩
  case host a i rest hi hd h =>
    rcases h.image_cases with hsame | ⟨rfl, hb, hf, c, hc, himage⟩
    · exact absurd hsame hne
    · exact .inr (.inl ⟨a, rest, c, hi, hd, hc, hb, himage, hf⟩)
  case gathered rest hf hi hx h =>
    rcases h.image_cases with hsame | ⟨hd, ha, hflow, hw⟩
    · exact absurd hsame hne
    · exact .inr (.inr ⟨_, rest, hf, hi, hx, (flowRxbuf_rxStore_take s _).symm, hd, ha, hflow, hw⟩)
  case block => rcases selfCheck_next_or_fatal _ _ _ _ with h | ⟨c, -, h⟩ <;> exact absurd (by rw [h]; rfl) hne
  case sendFrame h | sendAck h => rcases h.next_or_fatal with rfl | ⟨c, -, rfl⟩ <;> exact absurd rfl hne
  case echoFrame h => rcases h.next_or_fatal with rfl | ⟨c, -, rfl⟩ <;> exact absurd rfl hne
  case echoAck h => rcases h.next_or_fatal with rfl | ⟨c, -, rfl⟩ <;> exact absurd rfl hne
  case framingTimeout => exact absurd (by rw [idleTimeout_eq]; rfl) hne
  all_goals exact absurd rfl hne

/-- Settles O47: each outcome of a step appends to the events. -/
theorem eventStreamOnlyGrows : Obligations.EventStreamOnlyGrows :=
  fun _ _ h => (step_effect h).events_grow

/-- Settles O48: an answer is taken by the flow that STATE names, which leaves what it does not write. -/
theorem flowsKeepToTheirState : Obligations.FlowsKeepToTheirState := by
  intro s t ha h
  rcases (step_effect h).step_kind with ⟨rest, hi, -⟩ | ⟨a, i, rest, hi, -⟩ | ⟨hr, -, hw⟩ | ⟨hr, hw⟩
  · simp [answersNext, hi] at ha
  · simp [answersNext, hi] at ha
  · exact ⟨hw.shared_kept, fun _ => hw.receive_kept, fun hreceive => (nomatch hr.symm.trans hreceive)⟩
  · exact ⟨hw.shared_kept, fun hsend => (nomatch hsend.symm.trans hr), fun _ => hw.send_kept⟩

/-- A step that changes IMAGE makes it again in canonical form, with a legal capacity for its extent (20_memory.md R50). -/
theorem step_keeps_imageOk {s t : State} (h : step s = .next t) (hs : ImageOk s) (hconfig : ConfigOk s) : ImageOk t := by
  obtain ⟨hwf, hext⟩ := id hs
  by_cases hsame : t.image = s.image
  · rw [ImageOk, hsame]
    exact hs
  rcases onlyReceiveWritesImage s t h hsame with
    ⟨-, -, himage⟩ | ⟨-, -, c, -, -, hc, -, himage, -⟩ | ⟨f, rest, -, -, -, -, -, -, -, hw⟩
  · rw [ImageOk, himage]
    exact ⟨reset_image_wf, rfl⟩
  · obtain ⟨hlegal, -⟩ := hconfig
    rw [hc] at hlegal
    rw [ImageOk, himage]
    exact ⟨zeroImage_wf c, hlegal⟩
  · exact ⟨memWrite_wf hwf hw, by rw [memWrite_extent hw]; exact hext⟩

/-- Settles O40: each part of the invariant is kept by every outcome of a step. -/
theorem invariantKept : Obligations.InvariantKept := by
  intro s t hs h
  have heffect := step_effect h
  obtain ⟨hfatal, hconfig, hsend, hreceive, hflags, himage⟩ := hs
  exact ⟨heffect.fatalFieldsOk hfatal, heffect.configOk hconfig, heffect.sendOk hsend hconfig,
    heffect.receiveOk hreceive hconfig, heffect.flagsOk hflags, step_keeps_imageOk h himage hconfig⟩

/-- Settles O39: `State.reset` is what a reset of itself leaves. -/
theorem invariantAtReset : Obligations.InvariantAtReset := coherent_resetBlock State.reset

/-- Settles O38: the reset is taken at once, and leaves the power-on values. -/
theorem resetLeaves : Obligations.ResetLeaves := by
  intro s rest hi
  refine ⟨_, step_reset hi, rfl, rfl, rfl, rfl, rfl, rfl, rfl, rfl, rfl, rfl, rfl, rfl, rfl, rfl, rfl, rfl, rfl, rfl, rfl, ?_,
    rfl, fun _ => rfl, rfl, rfl, rfl, rfl⟩
  exact fun x hx => List.eq_of_mem_replicate hx

/-- Settles O37: with an empty inbox the fetch is the wait. -/
theorem blockWaitsForTheOutside : Obligations.BlockWaitsForTheOutside := by
  intro s hi
  simp only [step, fetch, hi, runFetched_finished]

/-- Settles O17: each register takes what its rule admits, and while busy the gate is closed before the value is looked at. -/
theorem configurationWrites : Obligations.ConfigurationWrites := by
  refine ⟨fun s hb => ⟨fun k h16 hlo hhi => ?_, fun k hk => ?_, fun m => ?_, fun a h1 hmax h16 => ?_, fun a ha => ?_⟩,
    fun s v hb => ⟨?_, ?_, ?_⟩, fun s v => rfl⟩
  · have hlt : k < 2 ^ 17 := by omega
    rw [exec_wr rfl, writeRegister, configGate_open hb, valueAsBits_of_lt hlt, withLegal_some,
      if_pos ((capacityLegal_ofNat hlt).2 ⟨h16, hlo, hhi⟩)]
  · rw [exec_wr rfl, writeRegister, configGate_open hb]
    by_cases hlt : k < 2 ^ 17
    · rw [valueAsBits_of_lt hlt, withLegal_some, if_neg (mt (capacityLegal_ofNat hlt).1 hk)]
    · rw [valueAsBits_of_le (by omega), withLegal_none]
  · rw [exec_wr rfl, writeRegister, configGate_open hb, valueAsBytes_val, withLegal_some]
  · rw [exec_wr rfl, writeRegister, configGate_open hb, valueAsAck_eq_some.2 ⟨rfl, h1, hmax, h16⟩, withLegal_some]
  · have hno : valueAsAck s.params.ackMax (.bytes a) = none := if_neg (by omega)
    rw [exec_wr rfl, writeRegister, configGate_open hb, hno, withLegal_none]
  · exact configGate_busy hb _
  · exact configGate_busy hb _
  · exact configGate_busy hb _

/-- Settles O18: these registers have no gate, so a value of the register's width is stored. -/
theorem packetRegisterWrites : Obligations.PacketRegisterWrites := by
  intro s
  refine ⟨fun m => ?_, fun k hk => ?_, fun k hk => ?_, fun b => rfl, fun d => ?_, fun k hk => ?_, fun f => ?_, fun bs hbs => ?_,
    fun c => ⟨?_, ?_⟩⟩
  · rw [exec_wr rfl, writeRegister, valueAsBytes_val, withLegal_some]
  · rw [exec_wr rfl, writeRegister, valueAsBits_of_lt hk, withLegal_some]
  · rw [exec_wr rfl, writeRegister, valueAsByte_of_lt hk, withLegal_some]
  · rw [exec_wr rfl, writeRegister, valueAsBytes_val, withLegal_some]
  · rw [exec_wr rfl, writeRegister, valueAsBits_of_lt hk, withLegal_some]
  · rw [exec_wr rfl, writeRegister, valueAsBytes_val, withLegal_some]
  · rw [exec_wr rfl, writeRegister, valueAsBytes_of_ne hbs, withLegal_none]
  · rw [exec_wr rfl, writeRegister, valueAsByte_toNat, withLegal_some, exec_decodeCommand]
  · rw [exec_wr rfl, writeRegister, valueAsByte_singleton, withLegal_some, exec_decodeCommand]

/-- Settles O20: the register that each number names reads as the field the statement pairs with it. -/
theorem registerReads : Obligations.RegisterReads := by
  intro s
  refine ⟨rfl, fun n x hx k hk => ?_, fun n x hx bs hbs => ?_⟩
  · have hread : ∃ r, regOf n = some r ∧ readRegister r s = x.map .num := by
      simp only [List.mem_cons, Prod.mk.injEq, List.not_mem_nil, or_false] at hx
      rcases hx with ⟨rfl, rfl⟩ | ⟨rfl, rfl⟩ | ⟨rfl, rfl⟩ | ⟨rfl, rfl⟩ | ⟨rfl, rfl⟩ | ⟨rfl, rfl⟩ | ⟨rfl, rfl⟩ |
        ⟨rfl, rfl⟩ | ⟨rfl, rfl⟩ <;> exact ⟨_, rfl, (Option.map_map ..).symm⟩
    obtain ⟨r, hr, hv⟩ := hread
    exact exec_rd hr (by rw [hv, hk]; rfl)
  · have hread : ∃ r, regOf n = some r ∧ readRegister r s = x.map .bytes := by
      simp only [List.mem_cons, Prod.mk.injEq, List.not_mem_nil, or_false] at hx
      rcases hx with ⟨rfl, rfl⟩ | ⟨rfl, rfl⟩ | ⟨rfl, rfl⟩ | ⟨rfl, rfl⟩ | ⟨rfl, rfl⟩
      case inr.inl => exact ⟨.cfgAck, rfl, rfl⟩
      all_goals exact ⟨_, rfl, (Option.map_map ..).symm⟩
    obtain ⟨r, hr, hv⟩ := hread
    exact exec_rd hr (by rw [hv, hbs]; rfl)

/-- Settles O22: STATUS is laid out field by field, and the codes and classes are the tables'. -/
theorem statusFieldsAndCodes : Obligations.StatusFieldsAndCodes := by
  refine ⟨statusWord_fields, rfl, rfl, rfl, fun a b => ⟨rfl, rfl, rfl, ?_, rfl, rfl, rfl⟩⟩
  simp only [eventClass, extractLsb'_two_two_eq_zero]

end Sys2Proof.Proofs
end

section
/-! PROOF. The statements of 20_memory.md: MemWrite and MemRead inside and outside the extent (R51), and the host's accesses to IMAGE
(R54). -/

namespace Sys2Proof.Machine

/-! ### MemWrite and MemRead (20_memory.md R51) -/

section Memory
variable {m : Image} {e : BitVec 17} {a n : Nat} {vs : List Byte}

theorem imageByte_of_lt (he : m.extent = some e) (ha : a < e.toNat) : imageByte a m = some (cellsRead a m.cells) := by
  simp only [imageByte, he, if_pos ha]

theorem memWrite_of_outside (he : m.extent = some e) (h : e.toNat < a + vs.length) : memWrite a vs m = none := by
  simp only [memWrite, he, if_neg (Nat.not_le.2 h)]

theorem memWrite_of_inside (he : m.extent = some e) (h : a + vs.length ≤ e.toNat) : ∃ m', memWrite a vs m = some m' :=
  ⟨_, memWrite_eq_some.2 ⟨e, he, h, rfl⟩⟩

/-- The empty read is checked against the extent at the block's end, so it refuses the whole block. -/
theorem memRead_of_outside (he : m.extent = some e) (h : e.toNat < a + n) : memRead a n m = none := by
  induction n generalizing a with
  | zero =>
    rw [Nat.add_zero] at h
    simp only [memRead, he, if_neg (Nat.not_le.2 h)]
  | succ n ih =>
    have htail : memRead (a + 1) n m = none := ih (by omega)
    simp [memRead, htail]

/-- A block inside the extent reads as its bytes one by one. -/
theorem memRead_of_bytes (he : m.extent = some e) (h : a + vs.length ≤ e.toNat)
    (hbytes : ∀ (i : Nat) (hi : i < vs.length), imageByte (a + i) m = some vs[i]) : memRead a vs.length m = some vs := by
  induction vs generalizing a with
  | nil => simp only [List.length_nil, memRead, he, if_pos (Nat.le_of_add_right_le h)]
  | cons v vs ih =>
    rw [List.length_cons] at h
    have hhead : imageByte a m = some v := hbytes 0 (Nat.succ_pos _)
    have htail : memRead (a + 1) vs.length m = some vs := by
      refine ih (by omega) fun i hi => ?_
      rw [Nat.add_assoc, Nat.add_comm 1 i]
      exact hbytes (i + 1) (Nat.succ_lt_succ hi)
    simp only [List.length_cons, memRead, hhead, htail]

theorem memRead_memWrite {m' : Image} (hm : m.wf = true) (h : memWrite a vs m = some m') : memRead a vs.length m' = some vs := by
  obtain ⟨e, he, hle, -⟩ := memWrite_eq_some.1 h
  refine memRead_of_bytes ((memWrite_extent h).trans he) hle fun i hi => ?_
  rw [imageByte_memWrite (a + i) hm h, dif_pos ⟨by omega, by omega⟩]
  simp only [Nat.add_sub_cancel_left]

theorem imageByte_memWrite_of_outside {m' : Image} (hm : m.wf = true) (h : memWrite a vs m = some m') {b : Nat}
    (hb : b < a ∨ a + vs.length ≤ b) : imageByte b m' = imageByte b m := by
  rw [imageByte_memWrite b hm h, dif_neg (by omega)]

end Memory

/-! ### The host's accesses to IMAGE (20_memory.md R54) -/

theorem isReceiving_iff {f : FlowState} : isReceiving f = true ↔ f = .rxFrame ∨ f = .rxAckWrite ∨ f = .rxAckEcho := by
  cases f <;> simp [isReceiving]

theorem exec_rd_image_receiving {s : State} (a : Nat) (hr : isReceiving s.flow = true) :
    exec (.rd (.image a)) s = .refused .imageWhileReceiving := by
  simp only [exec, execRd, if_pos hr]

theorem exec_rd_image {s : State} {a : Nat} {b : Byte} (hr : ¬ isReceiving s.flow = true) (hb : imageByte a s.image = some b) :
    exec (.rd (.image a)) s = .next (hostReply (.image a) (.num b.toNat) s) := by
  simp only [exec, execRd, if_neg hr, hb]

end Sys2Proof.Machine

namespace Sys2Proof.Proofs
open Sys2Proof.Machine

/-- Settles O23: a write inside the extent puts its bytes there and nowhere else, so reading byte by byte finds them; and neither a
host access nor a flow's step of a coherent state is refused on this ground. -/
theorem memWriteReadsBack : Obligations.MemWriteReadsBack := by
  refine ⟨fun m e addr v he hwf => ⟨fun hout => ?_, fun hin => ?_⟩, fun s hs hrefused => ?_⟩
  · exact ⟨memWrite_of_outside he hout, memRead_of_outside he hout⟩
  · obtain ⟨m', hw⟩ := memWrite_of_inside he hin
    exact ⟨m', hw, memWrite_wf hwf hw, memRead_memWrite hwf hw, fun a ha => imageByte_memWrite_of_outside hwf hw ha⟩
  · obtain ⟨-, hanswer, hhost⟩ := reachableStepsNeverFault.2 s hs
    have hno : ∀ a rest, s.inbox ≠ .host a :: rest := fun a rest hin =>
      hhost .imageWriteOutside (by simp) a rest hin hrefused
    cases hanswer hno _ hrefused

/-- Settles O21: the read asks first whether the receive flow runs, then for the byte, which the extent holds; a write asks nothing. -/
theorem imageReads : Obligations.ImageReads := by
  refine fun s a => ⟨fun hframe hwrite hecho e he ha => ?_, fun hr => ?_, fun v => rfl⟩
  · have hr : ¬ isReceiving s.flow = true := by
      rw [isReceiving_iff]
      rintro (h | h | h)
      · exact hframe h
      · exact hwrite h
      · exact hecho h
    have hbyte := imageByte_of_lt he ha
    exact ⟨_, hbyte, exec_rd_image hr hbyte⟩
  · exact exec_rd_image_receiving a (isReceiving_iff.2 hr)

end Sys2Proof.Proofs
end

section
/-! PROOF. The statements of 30_encoding.md: the encoder against the decoder (R67, R74, R77, R78, R80), where a command is refused
(R78, R149), what an accepted frame leaves (R79, R131 to R135), and the instruction that a step runs. -/

namespace Sys2Proof

/-! ### The encoder and the decoder, form by form -/

/-- The codes outside the table are those that no command has (30_encoding.md R77, R78). -/
theorem decodeCommand_of_reserved {c : Byte} (h : isCommandCode c = false) : decodeCommand c = .cmdReserved c := by
  simp only [isCommandCode, List.contains_eq_mem, List.mem_cons, List.not_mem_nil, or_false, decide_eq_false_iff_not,
    not_or] at h
  obtain ⟨h1, h2, h3, h4, h5⟩ := h
  simp only [decodeCommand, if_neg h1, if_neg h2, if_neg h3, if_neg h4, if_neg h5]

/-- No well-formed WR names CMD: such a write is a command. -/
theorem fitsRegister_cmd (v : HostValue) : fitsRegister 0x00#8 v = false := by
  cases v <;> rfl

theorem frameAction_eq_getD (f : Bytes 42) : frameAction f = f.val.getD 8 0 := by
  simp [frameAction, byteAt, List.getD_eq_getElem?_getD, f.property]

/-- No byte of a frame is dropped (30_encoding.md R67). -/
theorem encode_decodeFrame (f : Bytes 42) : encode (decodeFrame f) = .frame f.val := by
  have hf := frameBytes_fields f
  by_cases ha : frameAction f = 0x57#8
  · rw [ha] at hf
    rw [decodeFrame, if_pos ha, encode, hf]
  · rw [decodeFrame, if_neg ha, encode, hf]

end Sys2Proof

namespace Sys2Proof.Machine

/-! ### Where a command is refused (44_host_commands.md R143, R149) -/

section Commands
variable {s : State}

theorem commandGate_busy (k : Out) (hb : isBusy s.flow = true) : commandGate s k = .refused .commandWhileBusy := if_pos hb

theorem commandGate_fatal (k : Out) (hf : s.flow = .fatal) : commandGate s k = .refused .commandInFatal := by
  rw [commandGate, hf]
  rfl

/-- Every command, a reserved one too, passes the gate first. -/
theorem issueCommand_gated (c : Byte) (s : State) : ∃ k, issueCommand c s = commandGate s k := by
  unfold issueCommand
  split_ifs <;> exact ⟨_, rfl⟩

/-- Operands are asked for one after the other: where one is missing, or the rest is refused for another, the command is. -/
theorem withOperand_noValue {α : Type} {o : Option α} {k : α → Out} (h : o = none ∨ ∀ a, k a = .refused .noValue) :
    withOperand o k = .refused .noValue := by
  cases o with
  | none => rfl
  | some a => exact h.resolve_left nofun a

theorem withConfig_noValue {k : BitVec 17 → Out} (h : s.cfgCapacity = none ∨ s.cfgMagic = none ∨ s.cfgAck = none) :
    withConfig s k = .refused .noValue :=
  withOperand_noValue <| h.imp_right fun h _ => withOperand_noValue <| h.imp_right fun h _ => withOperand_noValue (.inl h)

variable (hb : isBusy s.flow = false) (hf : s.flow ≠ .fatal)
include hb hf

theorem execCmdEncode_noValue (h : s.pktBlock = none ∨ s.pktData = none ∨ s.cfgMagic = none) :
    execCmdEncode s = .refused .noValue :=
  (commandGate_open _ hb hf).trans <|
    withOperand_noValue <| h.imp_right fun h _ => withOperand_noValue <| h.imp_right fun h _ => withOperand_noValue (.inl h)

theorem execCmdDecode_noValue (h : s.frame = none) : execCmdDecode s = .refused .noValue :=
  (commandGate_open _ hb hf).trans <| withOperand_noValue (.inl h)

theorem execCmdValidate_noValue
    (h : s.pktMagic = none ∨ s.pktOffset = none ∨ s.pktAction = none ∨ s.cfgMagic = none ∨ s.cfgCapacity = none) :
    execCmdValidate s = .refused .noValue :=
  (commandGate_open _ hb hf).trans <|
    withOperand_noValue <| h.imp_right fun h _ => withOperand_noValue <| h.imp_right fun h _ =>
      withOperand_noValue <| h.imp_right fun h _ => withOperand_noValue <| h.imp_right fun h _ => withOperand_noValue (.inl h)

theorem execCmdStartSend_noValue (h : s.cfgCapacity = none ∨ s.cfgMagic = none ∨ s.cfgAck = none) :
    execCmdStartSend s = .refused .noValue :=
  (commandGate_open _ hb hf).trans (withConfig_noValue h)

theorem execCmdStartRecv_noValue (h : s.cfgCapacity = none ∨ s.cfgMagic = none ∨ s.cfgAck = none) :
    execCmdStartRecv s = .refused .noValue :=
  (commandGate_open _ hb hf).trans (withConfig_noValue h)

end Commands

/-- Whatever STATE is, the gate or the missing meaning refuses a reserved code (30_encoding.md R78). -/
theorem execCmdReserved_refused (c : Byte) (s : State) : ∃ r, execCmdReserved c s = .refused r := by
  unfold execCmdReserved commandGate
  split_ifs <;> exact ⟨_, rfl⟩

/-! ### A frame without an error flag (43_receive_flow.md R131 to R135) -/

section Accepted
variable {s : State} {f : Bytes 42} {p : Packet} {magic : Bytes 4} {capacity : BitVec 17} {cursor : BitVec 16}

theorem decodePacket_action {ds : BitVec 2} (h : decodePacket f = (p, ds)) : p.action = frameAction f :=
  (congrArg (fun r : Packet × BitVec 2 => r.1.action) h).symm

/-- Of the two frame instructions only the write writes IMAGE (43_receive_flow.md R133). -/
theorem frameImage_of_write (m : Image) (h : p.action = 0x57#8) : frameImage p m = memWrite p.offset.toNat p.data.val m := if_pos h
theorem frameImage_of_other (m : Image) (h : p.action ≠ 0x57#8) : frameImage p m = some m := if_neg h

/-- The next state of an accepted frame, with the image that step 4 leaves. -/
theorem processFrame_accept {img : Image} (hd : decodePacket f = (p, 0#2)) (hm : s.cfgMagic = some magic)
    (hc : s.cfgCapacity = some capacity) (hcur : s.cursor = some cursor)
    (hv : hasError (validatePacket p magic capacity) = false) (hi : frameImage p s.image = some img) :
    processFrame f s = .next { s with
      events := s.events ++ acceptEvents (validatePacket p magic capacity) p.offset cursor,
      image := img, cursor := some ((p.offset >>> 4) + 1#16), flow := .rxAckWrite } := by
  have himage : frameImage p (emitFlags (validatePacket p magic capacity) p.offset s).image = some img := by
    rw [emitFlags_eq]
    exact hi
  have hcursor : flowCursor (emitFlags (validatePacket p magic capacity) p.offset s) = cursor := by
    rw [emitFlags_eq]
    exact flowCursor_of_some hcur
  simp only [processFrame, hd, flowMagic_of_some hm, flowCapacity_of_some hc, hv, ne_eq, not_true, if_false,
    Bool.false_eq_true, acceptPacket, himage, hcursor, emitJump_emitFlags]

/-- The 16 bytes of the block are the data; every other byte reads as before. -/
theorem imageByte_memWrite_block {m m' : Image} {a : Nat} {d : Bytes 16} (b : Nat) (hwf : m.wf = true)
    (h : memWrite a d.val m = some m') :
    imageByte b m' = if a ≤ b ∧ b < a + 16 then some (d.val.getD (b - a) 0) else imageByte b m := by
  have hlen := d.property
  rw [imageByte_memWrite b hwf h]
  by_cases hb : a ≤ b ∧ b < a + 16
  · have hin : b - a < d.val.length := by omega
    rw [dif_pos ⟨hb.1, hin⟩, if_pos hb, List.getD_eq_getElem _ _ hin]
  · rw [dif_neg (by omega), if_neg hb]

end Accepted

/-! ### The instruction a step runs -/

section Fetched
variable {s : State}

theorem step_of_answersNext (h : answersNext s = true) : step s = runFetched (fetchFlow s) := by
  match hin : s.inbox with
  | [] | .host _ :: _ | .reset :: _ => simp [answersNext, hin] at h
  | .tx x :: rest => exact step_flow (.inl ⟨x, rest, hin⟩)
  | .rx x :: rest => exact step_flow (.inr (.inl ⟨x, rest, hin⟩))
  | .src x :: rest => exact step_flow (.inr (.inr ⟨x, rest, hin⟩))

theorem fetchFlow_txbuf (h : s.flow = .txWrite ∨ s.flow = .txEcho) : fetchFlow s = fetchTxbuf s := by
  rcases h with h | h <;> simp only [fetchFlow, h]

theorem fetchFlow_cfgAck (h : s.flow = .rxAckWrite ∨ s.flow = .rxAckEcho) : fetchFlow s = fetchCfgAck s := by
  rcases h with h | h <;> simp only [fetchFlow, h]

/-- The bytes that TX_ACK's read brings are an acknowledgement to run after the read (42_send_flow.md R115). -/
theorem fetchTxAck_data {bs : List Byte} {rest : List Stimulus} (hpos : 1 ≤ bs.length) (hmax : bs.length ≤ (flowAckLen s).toNat)
    (hin : s.inbox = .rx (.data bs) :: rest) :
    fetchTxAck s = .run (.ackFrame bs) (afterRx (flowAckLen s).toNat .ack (.data bs) rest s) := by
  have hadm : rxAdmits (flowAckLen s).toNat (.data bs) = true := by simp [rxAdmits, hpos, hmax]
  have hread : rxRead (flowAckLen s).toNat .ack s
      = .answered (.data bs) (afterRx (flowAckLen s).toNat .ack (.data bs) rest s) :=
    rxRead_answered.2 ⟨rest, hin, hadm, rfl⟩
  rw [fetchTxAck, hread]
  exact fetchDecoded_ack (List.ne_nil_of_length_pos hpos) _

end Fetched

end Sys2Proof.Machine

namespace Sys2Proof.Proofs
open Sys2Proof.Machine

/-- Settles O8: a frame is read back from its fields, a command from its code. Well-formedness keeps out the terms that spell
another instruction or none: a FRAME_OTHER with the write action, an empty acknowledgement, a CMD_RESERVED with a code of the table,
and a WR of CMD. -/
theorem encodedInstructionDecodesBack : Obligations.EncodedInstructionDecodesBack := by
  intro i hwf
  cases i with
  | frameWrite m o d t => rw [encode, decode_frame, decodeFrame_frameBytes, if_pos rfl]
  | frameOther m o a d t =>
    have ha : a ≠ 0x57#8 := by simp only [Instr.wf, Bool.and_eq_true, bne_iff_ne] at hwf; exact hwf.2
    rw [encode, decode_frame, decodeFrame_frameBytes, if_neg ha]
  | ackFrame bs =>
    have hne : bs ≠ [] := by rintro rfl; cases hwf
    exact decode_ack hne
  | cmdEncode => exact decode_command 0x01#8
  | cmdDecode => exact decode_command 0x02#8
  | cmdValidate => exact decode_command 0x03#8
  | cmdStartSend => exact decode_command 0x10#8
  | cmdStartRecv => exact decode_command 0x11#8
  | cmdReserved c =>
    have hc : isCommandCode c = false := by simpa [Instr.wf] using hwf
    rw [encode, decode_command, decodeCommand_of_reserved hc]
  | wr t v =>
    have ht : t ≠ .reg 0x00#8 := by
      rintro rfl
      rw [Instr.wf, fitsRegister_cmd] at hwf
      cases hwf
    rw [encode, decode_write, decodeWrite_of_ne v ht]
  | rd t => exact decode_read t

/-- Settles O9: the decoder cuts the frame into its fields, which the encoder lays out again, and branches on byte 8. -/
theorem everyFrameIsAnInstruction : Obligations.EveryFrameIsAnInstruction := by
  intro f
  rw [← frameAction_eq_getD]
  exact ⟨decode_frame f, encode_decodeFrame f, fun h => ⟨_, _, _, _, if_pos h⟩, fun h => ⟨_, _, _, _, if_neg h⟩⟩

/-- Settles O10: each code is a line of the command table, and the frame is cut at the offsets of R67. -/
theorem spelledWordsDecode : Obligations.SpelledWordsDecode :=
  ⟨decode_command 0x01#8, decode_command 0x02#8, decode_command 0x03#8, decode_command 0x10#8, decode_command 0x11#8,
    decode_command 0x04#8, decode_write _ _, decode_read _, decode_ack nofun, decode_frame ⟨_, rfl⟩⟩

/-- Settles O16: every command passes the gate on STATE first, and behind it asks for its operands. -/
theorem commandsRefused : Obligations.CommandsRefused := by
  refine ⟨fun c s hb => ?_, fun c s hf => ?_, fun c s hc => ⟨decodeCommand_of_reserved hc, execCmdReserved_refused c s⟩,
    fun c s _ hb hf => commandGate_open _ hb hf, fun s hb hf => ⟨execCmdEncode_noValue hb hf, execCmdDecode_noValue hb hf,
      execCmdValidate_noValue hb hf, fun h => ⟨execCmdStartSend_noValue hb hf h, execCmdStartRecv_noValue hb hf h⟩⟩⟩
  · obtain ⟨k, hk⟩ := issueCommand_gated c s
    rw [exec_decodeCommand, hk, commandGate_busy k hb]
  · obtain ⟨k, hk⟩ := issueCommand_gated c s
    rw [exec_decodeCommand, hk, commandGate_fatal k hf]

/-- Settles O24: without an error flag the block lies inside the image, so the write action's MemWrite answers; any other action
leaves the image, and is the one that ACTION_UNKNOWN flags. -/
theorem acceptedFrames : Obligations.AcceptedFrames := by
  refine ⟨fun s m o d t p magic capacity cursor hf hd hm hc hlegal hext hwf hcur hv => ?_,
    fun s m o action d t p magic capacity cursor hf ha hd hm hc hcur hv => ?_⟩
  · have hp : p.action = 0x57#8 := by rw [decodePacket_action hd, frameAction_frameBytes]
    obtain ⟨halign, hlt⟩ := hasError_validatePacket.1 hv
    have hroom : p.offset.toNat + p.data.val.length ≤ capacity.toNat := by
      rw [p.data.property]
      exact block_inside hlegal halign hlt
    obtain ⟨img, hw⟩ := memWrite_of_inside hext hroom
    have hi : frameImage p s.image = some img := by rw [frameImage_of_write _ hp, hw]
    exact ⟨img, (memWrite_extent hw).trans hext, fun a => imageByte_memWrite_block a hwf hw,
      (runFrame_rxFrame _ hf).trans (processFrame_accept hd hm hc hcur hv hi)⟩
  · have hp : p.action ≠ 0x57#8 := by rw [decodePacket_action hd, frameAction_frameBytes]; exact ha
    refine ⟨(runFrame_rxFrame _ hf).trans (processFrame_accept hd hm hc hcur hv (frameImage_of_other _ hp)), ?_⟩
    rw [validatePacket_getLsbD_one, actionUnknown, decide_eq_true hp]

/-- Settles O36: the fetch hands on what the access, TXBUF, CFG_ACK or the read's bytes decode to, and the step runs it. -/
theorem stepRunsDecodedInstruction : Obligations.StepRunsDecodedInstruction := by
  refine ⟨fun s a rest i hin hd => ?_, fun s f hf ha hx => ?_, fun s a hf ha hx hne => ?_,
    fun s bs n rest hf hn hpos hmax hin => ?_⟩
  · simp only [step, fetch, hin, fetchDecoded, hd, runFetched_run, afterHost]
  · rw [step_of_answersNext ha, fetchFlow_txbuf hf, fetchTxbuf, flowTxbuf_of_some hx, fetchDecoded_frame, runFetched_run]
  · rw [step_of_answersNext ha, fetchFlow_cfgAck hf, fetchCfgAck, flowAck_of_some hx, fetchDecoded_ack hne, runFetched_run]
  · have hfetch : fetchFlow s = fetchTxAck s := by simp only [fetchFlow, hf]
    rw [← flowAckLen_of_some hn] at hmax ⊢
    rw [step_flow (.inr (.inl ⟨_, rest, hin⟩)), hfetch, fetchTxAck_data hpos hmax hin, runFetched_run]

end Sys2Proof.Proofs
end

section
/-! PROOF. The statements of 40_codec.md: the hex fields (R83 to R85), the layout of an encoded frame (R86), the four steps of decode
(R88 to R92), the validation flags (R93 to R98), the round trip (R99) and the canonical form (R100). The last two rest on one fact: a
frame decodes to a packet exactly when it spells that packet's fields, whatever its terminator. -/

namespace Sys2Proof

/-! ### The bytes of a frame, by position and by field (30_encoding.md R67) -/

theorem frameTerm_eq_getD (f : Bytes 42) : frameTerm f = f.val.getD 41 0 := by
  simp [frameTerm, byteAt, List.getD_eq_getElem?_getD, f.property]

theorem frameOffsetHex_val (f : Bytes 42) : (frameOffsetHex f).val = (f.val.drop 4).take 4 := rfl

theorem sliceBytes_getD {n i k : Nat} (b : Bytes n) (h : i + k ≤ n) {j : Nat} (hj : j < k) (x : Byte) :
    (sliceBytes b i k h).val.getD j x = b.val.getD (i + j) x := by
  simp [sliceBytes, List.getD_eq_getElem?_getD, hj]

theorem frameOffsetHex_getD (f : Bytes 42) {j : Nat} (hj : j < 4) (x : Byte) :
    (frameOffsetHex f).val.getD j x = f.val.getD (4 + j) x := sliceBytes_getD f _ hj x

theorem frameDataHex_getD (f : Bytes 42) {j : Nat} (hj : j < 32) (x : Byte) :
    (frameDataHex f).val.getD j x = f.val.getD (9 + j) x := sliceBytes_getD f _ hj x

/-- Sequences that agree below `m` have the same slices there. -/
theorem sliceBytes_congr {n m i k : Nat} {b c : Bytes n} (hbc : b.val.take m = c.val.take m) (hm : i + k ≤ m) (h : i + k ≤ n) :
    sliceBytes b i k h = sliceBytes c i k h := by
  have htake : ∀ l : List Byte, ((l.take m).drop i).take k = (l.drop i).take k := by
    intro l
    rw [List.drop_take, List.take_take, Nat.min_eq_left (by omega)]
  apply bytes_ext
  simp only [sliceBytes]
  rw [← htake b.val, hbc, htake]

theorem frameAction_congr {f g : Bytes 42} (h : f.val.take 41 = g.val.take 41) : frameAction f = frameAction g := by
  have htake : ∀ l : List Byte, (l.take 41).getD 8 0 = l.getD 8 0 := by
    intro l
    simp [List.getD_eq_getElem?_getD]
  rw [frameAction_eq_getD, frameAction_eq_getD, ← htake f.val, h, htake]

/-- The terminator is the last byte, so the bytes before it are those of the other fields. -/
theorem frameBytes_take (m o : Bytes 4) (a : Byte) (d : Bytes 32) (t : Byte) :
    (frameBytes m o a d t).val.take 41 = m.val ++ (o.val ++ (a :: d.val)) := by
  have hsplit : (frameBytes m o a d t).val = (m.val ++ (o.val ++ (a :: d.val))) ++ [t] := by simp [frameBytes]
  rw [hsplit, List.take_left' (by simp [m.property, o.property, d.property])]

end Sys2Proof

namespace Sys2Proof.Machine

/-! ### Hex fields (R83 to R85) -/

theorem hexdigit_toNat (n : BitVec 4) : (hexdigit n).toNat = if n.toNat < 10 then 0x30 + n.toNat else 0x41 + (n.toNat - 10) := by
  unfold hexdigit
  by_cases h : n < 10#4
  · rw [if_pos h, if_pos (by bv_omega)]
    bv_omega
  · rw [if_neg h, if_neg (by bv_omega)]
    bv_omega

theorem hexval_toNat (c : Byte) : (hexval c).map BitVec.toNat =
    if 0x30 ≤ c.toNat ∧ c.toNat ≤ 0x39 then some (c.toNat - 0x30)
    else if 0x41 ≤ c.toNat ∧ c.toNat ≤ 0x46 then some (c.toNat - 0x41 + 10)
    else none := by
  have hdec : (0x30#8 ≤ c ∧ c ≤ 0x39#8) ↔ 0x30 ≤ c.toNat ∧ c.toNat ≤ 0x39 := Iff.rfl
  have hupper : (0x41#8 ≤ c ∧ c ≤ 0x46#8) ↔ 0x41 ≤ c.toNat ∧ c.toNat ≤ 0x46 := Iff.rfl
  simp only [hexval, hdec, hupper]
  split_ifs with h1 h2
  · rw [Option.map_some]; congr 1; bv_omega
  · rw [Option.map_some]; congr 1; bv_omega
  · rfl

theorem hexfieldFrom_cons_eq_some {acc v : Nat} {c : Byte} {rest : List Byte} : hexfieldFrom acc (c :: rest) = some v ↔
    ∃ n, hexval c = some n ∧ hexfieldFrom (acc * 16 + n.toNat) rest = some v := by
  cases hc : hexval c <;> simp [hexfieldFrom, hc]

theorem hexfieldFrom_eq_none {acc : Nat} {s : List Byte} : hexfieldFrom acc s = none ↔ ∃ c ∈ s, hexval c = none := by
  induction s generalizing acc with
  | nil => simp [hexfieldFrom]
  | cons c rest ih => cases hc : hexval c <;> simp [hexfieldFrom, hc, ih]

theorem hexfield_eq_none {s : List Byte} : hexfield s = none ↔ ∃ c ∈ s, hexval c = none := hexfieldFrom_eq_none

/-- The digits read so far move up one place with each digit read. -/
theorem hexfieldFrom_eq_sum (acc : Nat) {s : List Byte} (h : ∀ c ∈ s, (hexval c).isSome) :
    hexfieldFrom acc s = some (acc * 16 ^ s.length +
      ∑ i ∈ Finset.range s.length, ((hexval (s.getD i 0)).getD 0).toNat * 16 ^ (s.length - 1 - i)) := by
  induction s generalizing acc with
  | nil => simp [hexfieldFrom]
  | cons c rest ih =>
    obtain ⟨n, hn⟩ := Option.isSome_iff_exists.1 (h c List.mem_cons_self)
    have hplace : ∀ i, rest.length - 1 - i = rest.length - (i + 1) := fun i => by omega
    refine hexfieldFrom_cons_eq_some.2 ⟨n, hn, ?_⟩
    rw [ih _ fun x hx => h x (List.mem_cons_of_mem _ hx)]
    simp only [List.length_cons, Finset.sum_range_succ', List.getD_cons_succ, List.getD_cons_zero, hn, Option.getD_some,
      Nat.add_sub_cancel, hplace, Nat.sub_zero]
    congr 1
    ring

theorem hexfieldFrom_lt {acc v : Nat} {s : List Byte} (h : hexfieldFrom acc s = some v) : v < (acc + 1) * 16 ^ s.length := by
  induction s generalizing acc with
  | nil => cases h; simp
  | cons c rest ih =>
    obtain ⟨n, -, hrest⟩ := hexfieldFrom_cons_eq_some.1 h
    calc v < (acc * 16 + n.toNat + 1) * 16 ^ rest.length := ih hrest
      _ ≤ ((acc + 1) * 16) * 16 ^ rest.length := Nat.mul_le_mul_right _ (by omega)
      _ = (acc + 1) * 16 ^ (c :: rest).length := by rw [List.length_cons, pow_succ']; ring

theorem hexfield_lt {v : Nat} {s : List Byte} (h : hexfield s = some v) : v < 16 ^ s.length := by
  simpa using hexfieldFrom_lt h

/-- No number has two spellings of one length: each digit is spelled by one byte only (R100). -/
theorem hexfieldFrom_injective {acc acc' v : Nat} {s s' : List Byte} (hlen : s.length = s'.length)
    (h : hexfieldFrom acc s = some v) (h' : hexfieldFrom acc' s' = some v) : acc = acc' ∧ s = s' := by
  induction s generalizing acc acc' s' with
  | nil =>
    obtain rfl := List.length_eq_zero_iff.1 hlen.symm
    cases h; cases h'
    exact ⟨rfl, rfl⟩
  | cons c rest ih =>
    obtain ⟨c', rest', rfl⟩ := List.exists_cons_of_length_eq_add_one hlen.symm
    obtain ⟨n, hc, hrest⟩ := hexfieldFrom_cons_eq_some.1 h
    obtain ⟨n', hc', hrest'⟩ := hexfieldFrom_cons_eq_some.1 h'
    obtain ⟨hacc, rfl⟩ := ih (Nat.succ.inj hlen) hrest hrest'
    have hn : n = n' := BitVec.eq_of_toNat_eq (by omega)
    refine ⟨by omega, ?_⟩
    rw [← hexdigit_of_hexval c n hc, ← hexdigit_of_hexval c' n' hc', hn]

theorem hexfield_injective {v : Nat} {s s' : List Byte} (hlen : s.length = s'.length) (h : hexfield s = some v)
    (h' : hexfield s' = some v) : s = s' := (hexfieldFrom_injective hlen h h').2

/-! ### The offset field (R69, R90) -/

theorem decodeOffset_eq_none {o : Bytes 4} : decodeOffset o = none ↔ hexfield o.val = none := by
  simp [decodeOffset]

/-- Four digits fit 16 bits, so nothing is cut off. -/
theorem hexfield_of_decodeOffset {o : Bytes 4} {v : BitVec 16} (h : decodeOffset o = some v) : hexfield o.val = some v.toNat := by
  obtain ⟨n, hn, rfl⟩ := Option.map_eq_some_iff.1 h
  have hlt : n < 2 ^ 16 := by simpa [o.property] using hexfield_lt hn
  rw [hn, BitVec.toNat_ofNat, Nat.mod_eq_of_lt hlt]

theorem decodeOffset_eq_some {o : Bytes 4} {v : BitVec 16} : decodeOffset o = some v ↔ o = offsetHexOf v := by
  refine ⟨fun h => ?_, fun h => h ▸ decodeOffset_offsetHexOf v⟩
  have hv := hexfield_of_decodeOffset (decodeOffset_offsetHexOf v)
  exact bytes_ext (hexfield_injective (o.property.trans (offsetHexOf v).property.symm) (hexfield_of_decodeOffset h) hv)

/-! ### The data field (R71, R92) -/

theorem bytesDigits_getD (l : List Byte) {k : Nat} (hk : k < l.length) :
    (bytesDigits l).getD (2 * k) 0 = hexdigit ((l.getD k 0).extractLsb' 4 4)
    ∧ (bytesDigits l).getD (2 * k + 1) 0 = hexdigit ((l.getD k 0).extractLsb' 0 4) := by
  induction l generalizing k with
  | nil => cases hk
  | cons b rest ih =>
    cases k with
    | zero => exact ⟨rfl, rfl⟩
    | succ k => exact ih (Nat.lt_of_succ_lt_succ hk)

theorem byteDigits_of_hexfield {hi lo : Byte} {v : Nat} (h : hexfield [hi, lo] = some v) :
    byteDigits (BitVec.ofNat 8 v) = [hi, lo] := by
  have hlt : v < 2 ^ 8 := hexfield_lt h
  have hv := hexfield_byteDigits (BitVec.ofNat 8 v)
  rw [BitVec.toNat_ofNat, Nat.mod_eq_of_lt hlt] at hv
  exact hexfield_injective rfl hv h

theorem bytesDigits_of_hexPairs {l ds : List Byte} (h : hexPairs l = some ds) : bytesDigits ds = l := by
  fun_induction hexPairs l generalizing ds with
  | case1 => cases h; rfl
  | case2 => cases h
  | case3 hi lo rest v vs hvs hv ih =>
    cases h
    rw [bytesDigits, byteDigits_of_hexfield hv, ih hvs]
    rfl
  | case4 => cases h

theorem decodeData_eq_some {d : Bytes 32} {ds : Bytes 16} : decodeData d = some ds ↔ d = dataHexOf ds := by
  refine ⟨fun h => ?_, fun h => h ▸ decodeData_dataHexOf ds⟩
  unfold decodeData at h
  split at h
  · rename_i l hl
    split at h
    · cases h
      exact bytes_ext (bytesDigits_of_hexPairs hl).symm
    · cases h
  · cases h

theorem hexPairs_cons_eq_none {hi lo : Byte} {rest : List Byte} :
    hexPairs (hi :: lo :: rest) = none ↔ hexfield [hi, lo] = none ∨ hexPairs rest = none := by
  cases hv : hexfield [hi, lo] <;> cases hvs : hexPairs rest <;> simp [hexPairs, hv, hvs]

/-- Of an even number of digits, some pair fails exactly when some digit does. -/
theorem hexPairs_eq_none {l : List Byte} {n : Nat} (hl : l.length = 2 * n) : hexPairs l = none ↔ ∃ c ∈ l, hexval c = none := by
  induction n generalizing l with
  | zero =>
    obtain rfl := List.length_eq_zero_iff.1 hl
    simp [hexPairs]
  | succ n ih =>
    match l, hl with
    | hi :: lo :: rest, hl =>
      have hrest : rest.length = 2 * n := by simp only [List.length_cons] at hl; omega
      rw [hexPairs_cons_eq_none, hexfield_eq_none, ih hrest]
      simp [or_assoc]

theorem decodeData_eq_none_iff_digit {d : Bytes 32} : decodeData d = none ↔ ∃ k, k < 32 ∧ hexval (d.val.getD k 0) = none := by
  rw [decodeData_eq_none, hexPairs_eq_none (n := 16) d.property]
  constructor
  · rintro ⟨c, hc, hnone⟩
    obtain ⟨k, hk, rfl⟩ := List.mem_iff_getElem.1 hc
    exact ⟨k, d.property ▸ hk, (congrArg hexval (List.getD_eq_getElem _ _ hk)).trans hnone⟩
  · rintro ⟨k, hk, hnone⟩
    have hk' : k < d.val.length := d.property.symm ▸ hk
    rw [List.getD_eq_getElem _ _ hk'] at hnone
    exact ⟨_, List.getElem_mem _, hnone⟩

theorem hexfield_dataHexOf (ds : Bytes 16) {k : Nat} (hk : k < 16) :
    hexfield [(dataHexOf ds).val.getD (2 * k) 0, (dataHexOf ds).val.getD (2 * k + 1) 0] = some (ds.val.getD k 0).toNat := by
  obtain ⟨hhi, hlo⟩ := bytesDigits_getD ds.val (ds.property.symm ▸ hk)
  rw [dataHexOf, hhi, hlo]
  exact hexfield_byteDigits _

/-! ### Decode (R88) -/

section Decode
variable (f : Bytes 42)

theorem decodePacket_offset : (decodePacket f).1.offset = (decodeOffset (frameOffsetHex f)).getD 0#16 := rfl
theorem decodePacket_data : (decodePacket f).1.data = (decodeData (frameDataHex f)).getD (zeroBytes 16) := rfl

theorem decodePacket_snd_getLsbD_zero : (decodePacket f).2.getLsbD 0 = (decodeOffset (frameOffsetHex f)).isNone :=
  dstatOf_getLsbD_zero _ _

theorem decodePacket_snd_getLsbD_one : (decodePacket f).2.getLsbD 1 = (decodeData (frameDataHex f)).isNone :=
  dstatOf_getLsbD_one _ _

end Decode

/-- R99 and R100 in one: each field has one spelling, so the frames that decode to a packet differ in the terminator only. -/
theorem decodePacket_eq_ok {f : Bytes 42} {p : Packet} : decodePacket f = (p, 0#2) ↔
    f = frameBytes p.magic (offsetHexOf p.offset) p.action (dataHexOf p.data) (frameTerm f) := by
  constructor
  · intro h
    obtain ⟨hp, hds⟩ := Prod.mk.inj h
    obtain ⟨ho, hd⟩ := dstatOf_eq_zero.1 hds
    obtain ⟨v, hv⟩ := Option.isSome_iff_exists.1 (Option.isNone_eq_false_iff.1 ho)
    obtain ⟨ds, hdata⟩ := Option.isSome_iff_exists.1 (Option.isNone_eq_false_iff.1 hd)
    rw [hv, hdata] at hp
    subst hp
    simp only [Option.getD_some]
    rw [← decodeOffset_eq_some.1 hv, ← decodeData_eq_some.1 hdata, frameBytes_fields]
  · intro h
    rw [h]
    simp [decodePacket, decodeOffset_offsetHexOf, decodeData_dataHexOf, dstatOf]

theorem decodePacket_encodeFrame (magic : Bytes 4) (bi : BitVec 16) (d : Bytes 16) :
    decodePacket (encodeFrame magic bi d) = ({ magic := magic, offset := bi <<< 4, action := 0x57#8, data := d }, 0#2) := by
  rw [decodePacket_eq_ok, encodeFrame, frameTerm_frameBytes]

/-- Byte 41 is not examined (D19). -/
theorem decodePacket_congr {f g : Bytes 42} (h : f.val.take 41 = g.val.take 41) : decodePacket f = decodePacket g := by
  have hmagic : frameMagic f = frameMagic g := sliceBytes_congr h (by omega) _
  have hoffset : frameOffsetHex f = frameOffsetHex g := sliceBytes_congr h (by omega) _
  have hdata : frameDataHex f = frameDataHex g := sliceBytes_congr h (by omega) _
  simp only [decodePacket, hmagic, hoffset, frameAction_congr h, hdata]

/-! ### Block indices and their offsets (R87, R96) -/

theorem shiftLeft_four_toNat {bi : BitVec 16} (h : bi.toNat ≤ 0x0FFF) : (bi <<< 4).toNat = bi.toNat * 16 := by
  rw [BitVec.toNat_shiftLeft, Nat.shiftLeft_eq]
  omega

theorem shiftRight_four_shiftLeft_four {o : BitVec 16} (h : o.toNat % 16 = 0) : (o >>> 4) <<< 4 = o := by
  apply BitVec.eq_of_toNat_eq
  rw [BitVec.toNat_shiftLeft, BitVec.toNat_ushiftRight, Nat.shiftLeft_eq, Nat.shiftRight_eq_div_pow]
  omega

/-! ### Validate (R93 to R98) -/

/-- Where each flag stands in the word (10_state.md R32). -/
theorem flags_getLsbD (r m a g : Bool) :
    (BitVec.ofBool r ++ (BitVec.ofBool m ++ (BitVec.ofBool a ++ BitVec.ofBool g))).getLsbD 0 = g
    ∧ (BitVec.ofBool r ++ (BitVec.ofBool m ++ (BitVec.ofBool a ++ BitVec.ofBool g))).getLsbD 2 = m
    ∧ (BitVec.ofBool r ++ (BitVec.ofBool m ++ (BitVec.ofBool a ++ BitVec.ofBool g))).getLsbD 3 = r := by
  revert r m a g; decide

section Flags
variable (p : Packet) (magic : Bytes 4) (capacity : BitVec 17)

theorem validatePacket_getLsbD_zero : (validatePacket p magic capacity).getLsbD 0 = magicMismatch p.magic magic :=
  (flags_getLsbD _ _ _ _).1

theorem validatePacket_getLsbD_two : (validatePacket p magic capacity).getLsbD 2 = offsetMisaligned p.offset :=
  (flags_getLsbD _ _ _ _).2.1

theorem validatePacket_getLsbD_three : (validatePacket p magic capacity).getLsbD 3 = offsetRange p.offset capacity :=
  (flags_getLsbD _ _ _ _).2.2

theorem hasError_validatePacket_eq :
    hasError (validatePacket p magic capacity) = (offsetRange p.offset capacity || offsetMisaligned p.offset) :=
  hasError_flags _ _ _ _

end Flags

theorem magicMismatch_iff {m m' : Bytes 4} : magicMismatch m m' = true ↔ ∃ i, i < 4 ∧ m.val.getD i 0 ≠ m'.val.getD i 0 := by
  rw [magicMismatch, decide_eq_true_iff, ← not_iff_not, not_not]
  constructor
  · rintro rfl ⟨i, -, hi⟩
    exact hi rfl
  · intro h
    push Not at h
    refine bytes_ext (List.ext_getElem (m.property.trans m'.property.symm) fun i hi hi' => ?_)
    have hbyte := h i (m.property ▸ hi)
    rwa [List.getD_eq_getElem _ _ hi, List.getD_eq_getElem _ _ hi'] at hbyte

theorem actionUnknown_iff {a : Byte} : actionUnknown a = true ↔ a ≠ 0x57#8 := decide_eq_true_iff

theorem offsetMisaligned_iff {o : BitVec 16} : offsetMisaligned o = true ↔ o.toNat % 16 ≠ 0 := by
  rw [offsetMisaligned, decide_eq_true_iff, ne_eq, ← BitVec.toNat_inj]
  simp

theorem offsetRange_iff {o : BitVec 16} {capacity : BitVec 17} : offsetRange o capacity = true ↔ capacity.toNat ≤ o.toNat :=
  decide_eq_true_iff

/-- The second line of R99, of any packet that meets the four checks. -/
theorem validatePacket_eq_zero {p : Packet} {magic : Bytes 4} {capacity : BitVec 17} (hm : p.magic = magic)
    (ha : p.action = 0x57#8) (halign : p.offset.toNat % 16 = 0) (hlt : p.offset.toNat < capacity.toNat) :
    validatePacket p magic capacity = 0#4 := by
  have hmagic : magicMismatch p.magic magic = false := decide_eq_false (not_not_intro hm)
  have haction : actionUnknown p.action = false := decide_eq_false (not_not_intro ha)
  have haligned : offsetMisaligned p.offset = false := Bool.eq_false_iff.2 fun h => offsetMisaligned_iff.1 h halign
  have hrange : offsetRange p.offset capacity = false := decide_eq_false (not_le.2 hlt)
  rw [validatePacket, validate, hmagic, haction, haligned, hrange]
  decide

end Sys2Proof.Machine

namespace Sys2Proof.Proofs
open Sys2Proof.Machine

/-- Settles O6: the encoded frame spells its packet's fields, and the offset is a multiple of 16 below the capacity. -/
theorem encodedBlockDecodesBack : Obligations.EncodedBlockDecodesBack := by
  intro magic bi d capacity hbi hlt
  have hoffset := shiftLeft_four_toNat hbi
  refine ⟨decodePacket_encodeFrame magic bi d, hoffset, validatePacket_eq_zero rfl rfl ?_ ?_⟩
  · rw [hoffset, Nat.mul_mod_left]
  · rw [hoffset]; exact hlt

/-- Settles O7: a frame that decodes is its packet's fields spelled out, so the packet fixes all of it but the terminator. -/
theorem writeFrameIsCanonical : Obligations.WriteFrameIsCanonical := by
  refine ⟨fun f p h haction hterm halign => ?_, fun m m' bi bi' d d' hbi hbi' h => ?_, fun f g p hf hg => ?_⟩
  · have hfields := decodePacket_eq_ok.1 h
    have hp : p.action = 0x57#8 := by rw [decodePacket_action h, frameAction_eq_getD, haction]
    rw [frameTerm_eq_getD, hterm, hp] at hfields
    rw [encodeFrame, shiftRight_four_shiftLeft_four halign]
    exact hfields.symm
  · have hdecode := congrArg decodePacket h
    rw [decodePacket_encodeFrame, decodePacket_encodeFrame] at hdecode
    simp only [Prod.mk.injEq, Packet.mk.injEq, true_and, and_true] at hdecode
    obtain ⟨hm, hoffset, hd⟩ := hdecode
    have hnat := congrArg BitVec.toNat hoffset
    rw [shiftLeft_four_toNat hbi, shiftLeft_four_toNat hbi'] at hnat
    exact ⟨hm, BitVec.eq_of_toNat_eq (by omega), hd⟩
  · rw [decodePacket_eq_ok.1 hf, decodePacket_eq_ok.1 hg, frameBytes_take, frameBytes_take]

/-- Settles O2: the field is read digit by digit, each onto the number read so far, which is 0 at the start. -/
theorem hexFieldIsBigEndian : Obligations.HexFieldIsBigEndian := by
  refine ⟨fun s h => hexfield_eq_none.2 h, fun s h => ?_⟩
  rw [hexfield, hexfieldFrom_eq_sum 0 h, Nat.zero_mul, Nat.zero_add]

/-- Settles O3: each field of the frame holds its digits, and each byte of the frame is a byte of its field. -/
theorem encodeLaysOutEveryByte : Obligations.EncodeLaysOutEveryByte := by
  intro magic bi d f o
  have hmagic : frameMagic (encodeFrame magic bi d) = magic := frameMagic_frameBytes ..
  have hoffset : ∀ j, j < 4 → f.getD (4 + j) 0 = (offsetHexOf o).val.getD j 0 := by
    intro j hj
    rw [← frameOffsetHex_getD _ hj, encodeFrame, frameOffsetHex_frameBytes]
  have hdata : ∀ j, j < 32 → f.getD (9 + j) 0 = (dataHexOf d).val.getD j 0 := by
    intro j hj
    rw [← frameDataHex_getD _ hj, encodeFrame, frameDataHex_frameBytes]
  refine ⟨congrArg Subtype.val hmagic, hoffset 0 (by decide), hoffset 1 (by decide), hoffset 2 (by decide), hoffset 3 (by decide),
    ?_, fun k hk => ?_, ?_⟩
  · rw [← frameAction_eq_getD, encodeFrame, frameAction_frameBytes]
  · obtain ⟨hhi, hlo⟩ := bytesDigits_getD d.val (d.property.symm ▸ hk)
    have hplace : 10 + 2 * k = 9 + (2 * k + 1) := by omega
    rw [hplace, hdata _ (by omega), hdata _ (by omega)]
    exact ⟨hhi, hlo⟩
  · rw [← frameTerm_eq_getD, encodeFrame, frameTerm_frameBytes]

/-- Settles O4: a field of the packet and its status bit are read from one field of the frame, and none is read from byte 41. -/
theorem decodeReadsEachField : Obligations.DecodeReadsEachField := by
  refine ⟨fun f => ?_, fun f g h => decodePacket_congr h⟩
  intro p ds
  have hdigit : decodeData (frameDataHex f) = none ↔ ∃ k, k < 32 ∧ hexval (f.val.getD (9 + k) 0) = none := by
    rw [decodeData_eq_none_iff_digit]
    exact exists_congr fun k => and_congr_right fun hk => by rw [frameDataHex_getD f hk]
  refine ⟨rfl, frameAction_eq_getD f, ?_, fun hall => ?_, fun hbad => ?_⟩
  · rw [decodePacket_snd_getLsbD_zero, decodePacket_offset, ← frameOffsetHex_val]
    cases ho : decodeOffset (frameOffsetHex f) with
    | none => rw [decodeOffset_eq_none.1 ho]; exact ⟨rfl, rfl⟩
    | some v => rw [hexfield_of_decodeOffset ho]; exact ⟨rfl, rfl⟩
  · obtain ⟨v, hv⟩ : ∃ v, decodeData (frameDataHex f) = some v := by
      refine Option.ne_none_iff_exists'.1 fun hnone => ?_
      obtain ⟨k, hk, hbad⟩ := hdigit.1 hnone
      cases hbad ▸ hall k hk
    rw [decodePacket_snd_getLsbD_one, decodePacket_data, hv]
    refine ⟨rfl, fun k hk => ?_⟩
    have hplace : 10 + 2 * k = 9 + (2 * k + 1) := by omega
    rw [hplace, ← frameDataHex_getD f (by omega), ← frameDataHex_getD f (by omega), decodeData_eq_some.1 hv]
    exact hexfield_dataHexOf v hk
  · rw [decodePacket_snd_getLsbD_one, decodePacket_data, hdigit.2 hbad]
    exact ⟨rfl, rfl⟩

/-- Settles O5: each flag is one bit of the word, and the error class is the upper two. -/
theorem validateSetsEachFlag : Obligations.ValidateSetsEachFlag := by
  intro p magic capacity vf
  have htwo : vf.getLsbD 2 = _ := validatePacket_getLsbD_two p magic capacity
  have hthree : vf.getLsbD 3 = _ := validatePacket_getLsbD_three p magic capacity
  refine ⟨?_, ?_, ?_, ?_, ?_⟩
  · rw [validatePacket_getLsbD_zero, magicMismatch_iff]
  · rw [validatePacket_getLsbD_one, actionUnknown_iff]
  · rw [htwo, offsetMisaligned_iff]
  · rw [hthree, offsetRange_iff]
  · rw [htwo, hthree, hasError_validatePacket_eq, Bool.or_eq_false_iff, and_comm]

/-- Settles O1: a digit below ten and one from ten on, and the two ranges of digit bytes. -/
theorem hexDigitValues : Obligations.HexDigitValues := ⟨hexdigit_toNat, hexval_toNat⟩

end Sys2Proof.Proofs
end

section
/-! PROOF. The statements of 41_echo_adapter.md: the write phase (R102) and the echo phase (R103), each proved of the adapter's bytes and
then used for the frame (R113, R114) and for the acknowledgement (R136, R137). -/

namespace Sys2Proof.Machine

/-! ### The adapter's outcomes, answer by answer -/

section Adapter
variable {s : State} {rest : List Stimulus} {bytes : List Byte} {after : FlowState} {onOk : State → Out}

theorem txWrite_of_admitted {cls : TimeoutClass} {a : TxAnswer} (hin : s.inbox = .tx a :: rest)
    (ha : txAdmits bytes.length a = true) : txWrite bytes cls s = .answered a (afterTx bytes cls a rest s) :=
  txWrite_answered.2 ⟨rest, hin, ha, rfl⟩

theorem rxRead_of_admitted {max : Nat} {cls : TimeoutClass} {a : RxAnswer} (hin : s.inbox = .rx a :: rest)
    (ha : rxAdmits max a = true) : rxRead max cls s = .answered a (afterRx max cls a rest s) :=
  rxRead_answered.2 ⟨rest, hin, ha, rfl⟩

theorem adapterWrite_written_all (hin : s.inbox = .tx (.written bytes.length) :: rest) :
    adapterWrite bytes after s = .next { afterTx bytes .write (.written bytes.length) rest s with flow := after } := by
  rw [adapterWrite, txWrite_of_admitted hin (decide_eq_true le_rfl)]
  exact if_pos rfl

theorem adapterWrite_written_short {n : Nat} (hn : n < bytes.length) (hin : s.inbox = .tx (.written n) :: rest) :
    adapterWrite bytes after s = .next (raiseFatal .writeShort (afterTx bytes .write (.written n) rest s)) := by
  rw [adapterWrite, txWrite_of_admitted hin (decide_eq_true hn.le)]
  exact if_neg hn.ne

theorem adapterWrite_error (hin : s.inbox = .tx .error :: rest) :
    adapterWrite bytes after s = .next (raiseFatal .writeError (afterTx bytes .write .error rest s)) := by
  rw [adapterWrite, txWrite_of_admitted hin rfl]

theorem adapterEcho_error (hin : s.inbox = .rx .error :: rest) :
    adapterEcho bytes onOk s = .next (raiseFatal .echoError (afterRx bytes.length .echo .error rest s)) := by
  rw [adapterEcho, rxRead_of_admitted hin rfl]

theorem adapterEcho_timeout (hin : s.inbox = .rx .timeout :: rest) :
    adapterEcho bytes onOk s = .next (raiseFatal .echoShort (afterRx bytes.length .echo .timeout rest s)) := by
  rw [adapterEcho, rxRead_of_admitted hin rfl]

theorem adapterEcho_data {bs : List Byte} {next : State → State} (hok : ∀ t, onOk t = .next (next t)) (hpos : 1 ≤ bs.length)
    (hle : bs.length ≤ bytes.length) (hin : s.inbox = .rx (.data bs) :: rest) :
    adapterEcho bytes onOk s = .next (
      if bs.length < bytes.length then raiseFatal .echoShort (afterRx bytes.length .echo (.data bs) rest s)
      else if bs ≠ bytes then raiseFatal .echoMismatch (afterRx bytes.length .echo (.data bs) rest s)
      else next (afterRx bytes.length .echo (.data bs) rest s)) := by
  have hadm : rxAdmits bytes.length (.data bs) = true := by simp [rxAdmits, hpos, hle]
  simp only [adapterEcho, rxRead_of_admitted hin hadm, hok, ne_eq, ite_not, apply_ite Host.Outcome.next]

end Adapter

/-! ### Where the adapter's bytes stand (R113, R114, R136, R137) -/

section Held
variable {s : State}

theorem answersAs_decodeFrame (f : Bytes 42) (hf : s.flow = .txWrite ∨ s.flow = .txEcho) (ha : answersNext s = true) :
    answersAs (decodeFrame f) (s.txbuf = some f) s (runFrame f s) := by
  obtain ⟨-, hstep, -, -⟩ := Proofs.stepRunsDecodedInstruction
  have hexec := exec_decodeFrame f s
  exact ⟨hexec, fun hheld => (hstep s f hf ha hheld).trans hexec⟩

theorem answersAs_ackFrame {bs : List Byte} (hne : bs ≠ []) (hf : s.flow = .rxAckWrite ∨ s.flow = .rxAckEcho)
    (ha : answersNext s = true) : answersAs (.ackFrame bs) (s.cfgAck = some bs) s (execAckFrame bs s) := by
  obtain ⟨-, -, hstep, -⟩ := Proofs.stepRunsDecodedInstruction
  exact ⟨rfl, fun hheld => hstep s bs hf ha hheld hne⟩

end Held

/-! ### Each phase of an instruction that runs as the adapter -/

section Phases
variable {i : Instr} {held : Prop} {s : State} {bytes : List Byte}

theorem answersNext_tx {a : TxAnswer} {rest : List Stimulus} (h : s.inbox = .tx a :: rest) : answersNext s = true := by
  simp only [answersNext, h]

theorem answersNext_rx {a : RxAnswer} {rest : List Stimulus} (h : s.inbox = .rx a :: rest) : answersNext s = true := by
  simp only [answersNext, h]

theorem answersAs_adapterWrite {after : FlowState} (rest : List Stimulus)
    (h : answersNext s = true → answersAs i held s (adapterWrite bytes after s)) :
    (s.inbox = .tx (.written bytes.length) :: rest → answersAs i held s
      (.next { afterTx bytes .write (.written bytes.length) rest s with flow := after }))
    ∧ (∀ n, n < bytes.length → s.inbox = .tx (.written n) :: rest → answersAs i held s
        (.next (raiseFatal .writeShort (afterTx bytes .write (.written n) rest s))))
    ∧ (s.inbox = .tx .error :: rest → answersAs i held s
        (.next (raiseFatal .writeError (afterTx bytes .write .error rest s)))) := by
  refine ⟨fun hin => ?_, fun n hn hin => ?_, fun hin => ?_⟩
  · exact adapterWrite_written_all hin ▸ h (answersNext_tx hin)
  · exact adapterWrite_written_short hn hin ▸ h (answersNext_tx hin)
  · exact adapterWrite_error hin ▸ h (answersNext_tx hin)

theorem answersAs_adapterEcho {onOk : State → Out} {next : State → State} (rest : List Stimulus)
    (hok : ∀ t, onOk t = .next (next t)) (h : answersNext s = true → answersAs i held s (adapterEcho bytes onOk s)) :
    (s.inbox = .rx .error :: rest → answersAs i held s
      (.next (raiseFatal .echoError (afterRx bytes.length .echo .error rest s))))
    ∧ (s.inbox = .rx .timeout :: rest → answersAs i held s
        (.next (raiseFatal .echoShort (afterRx bytes.length .echo .timeout rest s))))
    ∧ (∀ bs : List Byte, 1 ≤ bs.length → bs.length ≤ bytes.length → s.inbox = .rx (.data bs) :: rest →
        answersAs i held s (.next (
          if bs.length < bytes.length then raiseFatal .echoShort (afterRx bytes.length .echo (.data bs) rest s)
          else if bs ≠ bytes then raiseFatal .echoMismatch (afterRx bytes.length .echo (.data bs) rest s)
          else next (afterRx bytes.length .echo (.data bs) rest s)))) := by
  refine ⟨fun hin => ?_, fun hin => ?_, fun bs hpos hle hin => ?_⟩
  · exact adapterEcho_error hin ▸ h (answersNext_rx hin)
  · exact adapterEcho_timeout hin ▸ h (answersNext_rx hin)
  · exact adapterEcho_data hok hpos hle hin ▸ h (answersNext_rx hin)

end Phases

end Sys2Proof.Machine

namespace Sys2Proof.Proofs
open Sys2Proof.Machine

/-- Settles O26: in TX_WRITE the frame runs as the write phase of its 42 bytes, in RX_ACK_WRITE the acknowledgement as that of its
own. -/
theorem writePhase : Obligations.WritePhase := by
  refine ⟨fun s f rest hf => ?_, fun s bs rest hf hne => ?_⟩
  · have hphase := answersAs_adapterWrite rest fun ha => runFrame_txWrite f hf ▸ answersAs_decodeFrame f (.inl hf) ha
    rwa [f.property] at hphase
  · exact answersAs_adapterWrite rest fun ha => execAckFrame_rxAckWrite bs hf ▸ answersAs_ackFrame hne (.inl hf) ha

/-- Settles O27: the same for the echo phase; after the acknowledgement's echo the cursor is compared, which the read leaves as it
was. -/
theorem echoPhase : Obligations.EchoPhase := by
  refine ⟨fun s f rest hf => ?_, fun s ack rest cursor capacity hf hne hcur hcap => ?_⟩
  · have hphase := answersAs_adapterEcho rest (fun _ => rfl) fun ha =>
      runFrame_txEcho f hf ▸ answersAs_decodeFrame f (.inr hf) ha
    rwa [f.property] at hphase
  · obtain rfl := flowCursor_of_some hcur
    obtain rfl := flowCapacity_of_some hcap
    exact answersAs_adapterEcho rest (fun _ => rfl) fun ha =>
      execAckFrame_rxAckEcho ack hf ▸ answersAs_ackFrame hne (.inr hf) ha

end Sys2Proof.Proofs
end

section
/-! PROOF. The statements of 42_send_flow.md: the source's answer in TX_FETCH (R109), the encode and its contract (R110, R111), the
self-check (R112), and the acknowledgement's read and compare in TX_ACK (R115 to R119). The fetch rests on one fact: the self-check of an
encoded frame is the capacity check of its block index. -/

namespace Sys2Proof.Machine

/-! ### The self-check (R112) -/

theorem selfCheck_eq_ite (f : Bytes 42) (magic : Bytes 4) (capacity : BitVec 17) (s : State) :
    selfCheck f magic capacity s =
      if (decodePacket f).2 ≠ 0#2 then raiseFatal .selfcheckDecode s
      else if hasError (validatePacket (decodePacket f).1 magic capacity) = true then raiseFatal .selfcheckInvalid s
      else { s with flow := .txWrite } := rfl

/-- The warning class of the flags is MAGIC_MISMATCH and ACTION_UNKNOWN (R98). -/
theorem validatePacket_warnings_eq_zero {p : Packet} {magic : Bytes 4} (capacity : BitVec 17) (hm : p.magic = magic)
    (ha : p.action = 0x57#8) : (validatePacket p magic capacity).extractLsb' 0 2 = 0#2 := by
  have hmagic : magicMismatch p.magic magic = false := decide_eq_false (not_not_intro hm)
  have haction : actionUnknown p.action = false := decide_eq_false (not_not_intro ha)
  have hlow : ∀ r m : Bool, (BitVec.ofBool r ++ (BitVec.ofBool m ++ (BitVec.ofBool false ++ BitVec.ofBool false))).extractLsb' 0 2
      = 0#2 := by decide
  rw [validatePacket, validate, hmagic, haction]
  exact hlow _ _

/-- An encoded block's offset is a multiple of 16, so only the capacity is left to check. -/
theorem hasError_encodeFrame (magic : Bytes 4) {index : BitVec 16} (d : Bytes 16) (capacity : BitVec 17)
    (h : index.toNat ≤ 0x0FFF) :
    hasError (validatePacket (decodePacket (encodeFrame magic index d)).1 magic capacity) = true ↔
      capacity.toNat ≤ index.toNat * 16 := by
  rw [← Bool.not_eq_false, hasError_validatePacket, decodePacket_encodeFrame, shiftLeft_four_toNat h]
  omega

theorem selfCheck_encodeFrame (magic : Bytes 4) {index : BitVec 16} (d : Bytes 16) (capacity : BitVec 17) (s : State)
    (h : index.toNat ≤ 0x0FFF) :
    selfCheck (encodeFrame magic index d) magic capacity s =
      if index.toNat * 16 < capacity.toNat then { s with flow := .txWrite } else raiseFatal .selfcheckInvalid s := by
  have hok : ¬ (decodePacket (encodeFrame magic index d)).2 ≠ 0#2 := by
    rw [decodePacket_encodeFrame]
    exact not_not_intro rfl
  rw [selfCheck_eq_ite, if_neg hok]
  simp only [hasError_encodeFrame magic d capacity h, ← not_lt, ite_not]

/-! ### TX_FETCH (R109 to R111) -/

section Fetch
variable {s : State} {rest : List Stimulus} {index : BitVec 16} {magic : Bytes 4} {capacity : BitVec 17}

theorem srcRead_of_src {a : SrcAnswer} (hin : s.inbox = .src a :: rest) : srcRead s = .answered a (afterSrc a rest s) :=
  srcRead_answered.2 ⟨rest, hin, rfl⟩

theorem step_txFetch {a : SrcAnswer} (hf : s.flow = .txFetch) (hin : s.inbox = .src a :: rest) : step s = stepTxFetch s := by
  have hfetch : fetchFlow s = .finished (stepTxFetch s) := by simp only [fetchFlow, hf]
  rw [step_flow (.inr (.inr ⟨a, rest, hin⟩)), hfetch, runFetched_finished]

/-- What `sendBlock` answers where the three registers it reads are held; the contract comes before TXBUF is written (R111). -/
theorem sendBlock_of_held (d : Bytes 16) (hi : s.sendIndex = some index) (hm : s.cfgMagic = some magic)
    (hc : s.cfgCapacity = some capacity) :
    sendBlock d s = .next (
      if 0x0FFF < index.toNat then raiseFatal .encodeRange s
      else if index.toNat * 16 < capacity.toNat then
        { s with txbuf := some (encodeFrame magic index d), flow := .txWrite }
      else raiseFatal .selfcheckInvalid { s with txbuf := some (encodeFrame magic index d) }) := by
  rw [sendBlock, flowIndex_of_some hi, flowMagic_of_some hm, flowCapacity_of_some hc]
  by_cases hrange : 0x0FFF < index.toNat
  · have hno : encodable index = false := decide_eq_false (not_le.2 hrange)
    rw [hno, if_pos hrange]
    rfl
  · have hyes : encodable index = true := decide_eq_true (not_lt.1 hrange)
    rw [hyes, if_neg hrange, if_pos rfl]
    exact congrArg Host.Outcome.next (selfCheck_encodeFrame magic d capacity _ (not_lt.1 hrange))

end Fetch

/-! ### TX_ACK (R115 to R119) -/

section Ack
variable {s : State} {ack : List Byte} {index : BitVec 16}

theorem step_txAck {a : RxAnswer} {rest : List Stimulus} (hf : s.flow = .txAck) (hin : s.inbox = .rx a :: rest) :
    step s = runFetched (fetchTxAck s) := by
  have hfetch : fetchFlow s = fetchTxAck s := by simp only [fetchFlow, hf]
  rw [step_flow (.inr (.inl ⟨a, rest, hin⟩)), hfetch]

theorem flowAckLen_toNat (hn : s.cfgAckLen = some (BitVec.ofNat 16 ack.length)) (hlt : ack.length < 0x10000) :
    (flowAckLen s).toNat = ack.length := by
  rw [flowAckLen_of_some hn, BitVec.toNat_ofNat, Nat.mod_eq_of_lt hlt]

theorem ackReceived_of_held (bs : List Byte) (ha : s.cfgAck = some ack) (hi : s.sendIndex = some index) :
    ackReceived bs s = .next { s with
      events := s.events ++
        (if bs = ack then [] else [{ code := .txAckMismatch, a := BitVec.ofNat 16 bs.length, b := index }]),
      sendIndex := some (index + 1#16), flow := .txFetch } := by
  rw [ackReceived_eq, flowAck_of_some ha, flowIndex_of_some hi]

/-- The comparison of R116. -/
theorem eq_iff_length_and_getD {bs ack : List Byte} :
    bs = ack ↔ bs.length = ack.length ∧ ∀ i, i < ack.length → bs.getD i 0 = ack.getD i 0 := by
  constructor
  · rintro rfl
    exact ⟨rfl, fun _ _ => rfl⟩
  · rintro ⟨hlen, hbytes⟩
    refine List.ext_getElem hlen fun i hi hi' => ?_
    rw [← List.getD_eq_getElem _ 0 hi, ← List.getD_eq_getElem _ 0 hi', hbytes i hi']

/-- In TX_ACK the index is that of an encoded block, so its successor is at most 0x1000 (R35, R111). -/
theorem Coherent.succ_index_toNat (hs : Coherent s) (hf : s.flow = .txAck) (hi : s.sendIndex = some index) :
    (index + 1#16).toNat = index.toNat + 1 := by
  obtain ⟨-, -, ⟨-, -, hsent, -⟩, -⟩ := hs
  have hle : index.toNat ≤ 0x0FFF := by simpa [hi] using hsent (.inr (.inr hf))
  rw [BitVec.toNat_add]
  exact Nat.mod_eq_of_lt (by simp only [BitVec.toNat_ofNat]; omega)

end Ack

end Sys2Proof.Machine

namespace Sys2Proof.Proofs
open Sys2Proof.Machine

/-- Settles O30: the step reads the source, and the answer says which of the three it is. -/
theorem txFetchEnds : Obligations.TxFetchEnds := by
  intro s rest hf
  refine ⟨fun hin => ?_, fun hin => ?_, fun d hin => ?_⟩ <;> rw [step_txFetch hf hin, stepTxFetch, srcRead_of_src hin]

/-- Settles O31: the block goes on to `sendBlock`, and the read changes none of the registers that decide there. -/
theorem txFetchBlock : Obligations.TxFetchBlock := by
  intro s rest d index magic capacity hf hin hi hm hc
  obtain ⟨-, -, hblock⟩ := txFetchEnds s rest hf
  rw [hblock d hin]
  exact sendBlock_of_held d hi hm hc

/-- Settles O32: an encoded frame decodes back to its own magic, the write action and an aligned offset. -/
theorem selfCheckOutcomes : Obligations.SelfCheckOutcomes := by
  refine ⟨selfCheck_eq_ite, fun magic index d capacity h => ⟨?_, ?_, hasError_encodeFrame magic d capacity h⟩⟩
  · rw [decodePacket_encodeFrame]
  · rw [decodePacket_encodeFrame]
    exact validatePacket_warnings_eq_zero capacity rfl rfl

/-- Settles O28: the comparison byte by byte is equality, and a coherent index in TX_ACK is below 0x1000. -/
theorem ackReadInTxAck : Obligations.AckReadInTxAck := by
  intro s bs ack index hf ha hi
  refine ⟨?_, fun hs => hs.succ_index_toNat hf hi⟩
  rw [exec_ackFrame, execAckFrame_txAck bs hf, ackReceived_of_held bs ha hi]
  simp only [eq_iff_length_and_getD]

/-- Settles O29: an error and a timeout end the step, and bytes are an acknowledgement to run. -/
theorem txAckStep : Obligations.TxAckStep := by
  intro s ack index rest hf ha hn hlt hi
  have hlen := flowAckLen_toNat hn hlt
  refine ⟨fun hin => ?_, fun hin hpos => ?_, fun bs hpos hle hin => ?_⟩
  · rw [step_txAck hf hin, fetchTxAck, hlen, rxRead_of_admitted hin rfl, runFetched_finished]
  · have hne : [] ≠ ack := (List.ne_nil_of_length_pos hpos).symm
    rw [step_txAck hf hin, fetchTxAck, hlen, rxRead_of_admitted hin rfl, runFetched_finished,
      ackReceived_of_held (s := afterRx ack.length .ack .timeout rest s) [] ha hi, if_neg hne]
    rfl
  · have hflow : (afterRx ack.length .ack (.data bs) rest s).flow = .txAck := hf
    rw [step_txAck hf hin, fetchTxAck_data hpos (hlen.symm ▸ hle) hin, hlen, runFetched_run, exec_ackFrame,
      execAckFrame_txAck bs hflow]
    exact ackReceived_of_held bs ha hi

end Sys2Proof.Proofs
end

section
/-! PROOF. The statements of 43_receive_flow.md: the framing read (R122 to R127), a frame that is thrown away or goes on to the compare
(R128 to R130), and where a receive ends (R138, R139). -/

namespace Sys2Proof.Machine

/-! ### The framing read, answer by answer (R122 to R127) -/

section Framing
variable {s : State} {rest : List Stimulus} {b : Byte} {count : BitVec 6}

theorem step_rxFrame {a : RxAnswer} (hf : s.flow = .rxFrame) (hin : s.inbox = .rx a :: rest) :
    step s = runFetched (fetchRxFrame s) := by
  have hfetch : fetchFlow s = fetchRxFrame s := by simp only [fetchFlow, hf]
  rw [step_flow (.inr (.inl ⟨a, rest, hin⟩)), hfetch]

theorem fetchRxFrame_error (hin : s.inbox = .rx .error :: rest) :
    fetchRxFrame s = .finished (.next (raiseFatal .rxReadError (afterRx 1 .rx .error rest s))) := by
  rw [fetchRxFrame, rxRead_of_admitted hin rfl]

theorem fetchRxFrame_timeout (hin : s.inbox = .rx .timeout :: rest) :
    fetchRxFrame s = .finished (.next (idleTimeout (flowCount s) (afterRx 1 .rx .timeout rest s))) := by
  rw [fetchRxFrame, rxRead_of_admitted hin rfl]
  rfl

theorem fetchRxFrame_byte (hin : s.inbox = .rx (.data [b]) :: rest) (hb : b ≠ 0x0D#8) :
    fetchRxFrame s = .finished (.next (gatherByte b (flowCount s) (afterRx 1 .rx (.data [b]) rest s))) := by
  rw [fetchRxFrame, rxRead_of_admitted hin rfl]
  exact if_neg hb

theorem fetchRxFrame_terminator (hin : s.inbox = .rx (.data [0x0D#8]) :: rest) :
    fetchRxFrame s = endFrame (flowCount s) (afterRx 1 .rx (.data [0x0D#8]) rest s) := by
  rw [fetchRxFrame, rxRead_of_admitted hin rfl]
  exact if_pos rfl

/-- The count saturates at 42 (R126). -/
theorem saturated_succ (count : BitVec 6) :
    (if count < 42#6 then count + 1#6 else 42#6) = BitVec.ofNat 6 (min (count.toNat + 1) 42) := by
  split <;> bv_omega

/-- The first 41 bytes of a frame are stored (R126). -/
theorem gatherByte_eq (b : Byte) (count : BitVec 6) (s : State) :
    ∃ buf : RxBuffer, buf.val = (if count.toNat < 41 then s.rxbuf.val.set count.toNat (some b) else s.rxbuf.val)
      ∧ gatherByte b count s = { s with rxbuf := buf, rxCount := some (BitVec.ofNat 6 (min (count.toNat + 1) 42)) } := by
  refine ⟨if count < 41#6 then rxStore s.rxbuf count.toNat b else s.rxbuf, ?_, by rw [gatherByte, saturated_succ]⟩
  exact apply_ite Subtype.val _ _ _

/-- A frame of another length than 42 is one event (R127). -/
theorem endFrame_short (h : count.toNat ≠ 41) :
    endFrame count s = .finished (.next { s with
      events := s.events ++ [{ code := .rxShortFrame, a := BitVec.ofNat 16 (count.toNat + 1), b := 0#16 }],
      rxCount := some 0#6 }) := by
  have hne : count ≠ 41#6 := by rintro rfl; exact h rfl
  have hlen : count.setWidth 16 + 1#16 = BitVec.ofNat 16 (count.toNat + 1) := by bv_omega
  rw [endFrame, if_pos hne, hlen]
  rfl

/-- The terminator completes the 41 bytes gathered to the frame. -/
theorem rxStore_terminator {buf : RxBuffer} {f : Bytes 42} (hbuf : buf.val.take 41 = (f.val.take 41).map some)
    (hterm : f.val.getD 41 0 = b) : (rxStore buf 41 b).val = f.val.map some := by
  have hlast : f.val.drop 41 = [b] := by
    rw [← hterm, List.drop_eq_getElem_cons (by rw [f.property]; decide), List.drop_eq_nil_of_le f.property.le,
      List.getD_eq_getElem]
  calc (rxStore buf 41 b).val
      = buf.val.take 41 ++ some b :: buf.val.drop 42 := by
        exact List.set_eq_take_append_cons_drop.trans (if_pos (by rw [buf.property]; decide))
    _ = (f.val.take 41 ++ f.val.drop 41).map some := by
        rw [hbuf, hlast, List.drop_eq_nil_of_le buf.property.le, List.map_append]
        rfl
    _ = f.val.map some := by rw [List.take_append_drop]

/-- A frame of 42 bytes is an instruction to run (R127). -/
theorem endFrame_whole {f : Bytes 42} (hbuf : s.rxbuf.val.take 41 = (f.val.take 41).map some)
    (hterm : f.val.getD 41 0 = 0x0D#8) :
    endFrame 41#6 s = .run (decodeFrame f) { s with
      rxbuf := ⟨f.val.map some, by rw [List.length_map, f.property]⟩, rxCount := some 0#6 } := by
  have hstored : rxStore s.rxbuf 41 0x0D#8 = ⟨f.val.map some, by rw [List.length_map, f.property]⟩ :=
    Subtype.ext (rxStore_terminator hbuf hterm)
  rw [endFrame, if_neg (not_not_intro rfl), hstored]
  dsimp only
  rw [flowRxbuf_of_map (f := f) rfl, fetchDecoded_frame]

end Framing

/-! ### A gathered frame, before the compare (R128 to R130) -/

section Gathered
variable {s : State} {f : Bytes 42} {p : Packet} {ds : BitVec 2}

theorem processFrame_decodeFail (hd : decodePacket f = (p, ds)) (h : ds ≠ 0#2) :
    processFrame f s = .next { s with
      events := s.events ++ [{ code := .rxDecodeFail, a := ds.setWidth 16, b := 0#16 }] } := by
  simp only [processFrame, hd]
  exact if_pos h

theorem processFrame_decoded (hd : decodePacket f = (p, 0#2)) :
    processFrame f s =
      if hasError (validatePacket p (flowMagic s) (flowCapacity s)) = true then
        .next (emitFlags (validatePacket p (flowMagic s) (flowCapacity s)) p.offset s)
      else acceptPacket p (emitFlags (validatePacket p (flowMagic s) (flowCapacity s)) p.offset s) := by
  simp only [processFrame, hd, ne_eq, not_true, if_false]

/-- An error flag is a flag (R98), so the frame it throws away leaves an event (R129). -/
theorem ne_zero_of_hasError {vf : BitVec 4} (h : hasError vf = true) : vf ≠ 0#4 := by
  rintro rfl
  cases h

end Gathered

/-! ### Where a receive goes (R138, R139) -/

section Ends
variable {s t u : State}

/-- A gathered frame, good or bad, keeps the flow in the receive. -/
theorem FrameEffect.isReceiving_flow {f : Bytes 42} (h : FrameEffect f u t) (hf : u.flow = .rxFrame) :
    isReceiving t.flow = true := by
  cases h
  case decodeFail => exact congrArg isReceiving hf
  case discard => rw [emitFlags_eq]; exact congrArg isReceiving hf
  case accept => rfl

/-- What an answer can lead a receive to. -/
inductive ReceiveOutcome (s t : State) : Prop where
  | stays (h : isReceiving t.flow = true)
  | ends (h : t.flow = .doneOk) (hf : s.flow = .rxAckEcho) (hc : (flowCapacity s).toNat ≤ (flowCursor s).toNat * 16)
  | fails (h : t.flow = .fatal) (hf : s.flow = .rxFrame → ∃ rest, s.inbox = .rx .error :: rest)

theorem Effect.receive_outcome (h : Effect s t) (hr : isReceiving s.flow = true) (ha : answersNext s = true) :
    ReceiveOutcome s t := by
  cases h
  case waits => exact .stays hr
  case reset hi | host hi _ _ => simp [answersNext, hi] at ha
  case sourceEof hf _ | sourceError hf _ | blockRange hf _ _ | block hf _ _ | sendFrame hf _ _ | echoFrame hf _ _ | ackError hf _
    | ackRead hf _ _ => exact nomatch (congrArg isReceiving hf).symm.trans hr
  case framingError rest hf hi => exact .fails rfl fun _ => ⟨rest, hi⟩
  case framingTimeout => rw [idleTimeout_eq]; exact .stays hr
  case gather | shortFrame => exact .stays hr
  case gathered hf _ _ h => exact .stays (h.isReceiving_flow hf)
  case sendAck hf _ h =>
    rcases h.next_or_fatal with rfl | ⟨c, -, rfl⟩
    · exact .stays rfl
    · exact .fails rfl fun hframe => nomatch hf.symm.trans hframe
  case echoAck hf _ h =>
    rcases h.next_or_fatal with rfl | ⟨c, -, rfl⟩
    · by_cases hc : (flowCapacity s).toNat ≤ (flowCursor s).toNat * 16
      · exact .ends (if_pos hc) hf hc
      · exact .stays (congrArg isReceiving (if_neg hc))
    · exact .fails rfl fun hframe => nomatch hf.symm.trans hframe

end Ends

end Sys2Proof.Machine

namespace Sys2Proof.Proofs
open Sys2Proof.Machine

/-- Settles O34: at any count but 41 the terminator leaves one event; at 41 it is the last byte of RXBUF, which is the frame to run. -/
theorem framingEndsFrame : Obligations.FramingEndsFrame := by
  intro s rest count hf hin hn _
  have hstep : step s = runFetched (endFrame count (afterRx 1 .rx (.data [0x0D#8]) rest s)) := by
    rw [step_rxFrame hf hin, fetchRxFrame_terminator hin, flowCount_of_some hn]
  refine ⟨fun hcount => ?_, fun f hcount hbuf hterm => ?_⟩
  · rw [hstep, endFrame_short hcount]
    rfl
  · obtain rfl : count = 41#6 := BitVec.eq_of_toNat_eq hcount
    rw [hstep]
    exact congrArg runFetched (endFrame_whole (s := afterRx 1 .rx (.data [0x0D#8]) rest s) hbuf hterm)

/-- Settles O49: of a receive step's outcomes only the acknowledgement's echo has DONE_OK, and in RX_FRAME only the read's error has
FATAL. -/
theorem receiveEndsOnlyAtTheCapacity : Obligations.ReceiveEndsOnlyAtTheCapacity := by
  intro s t hr ha h
  cases (step_effect h).receive_outcome hr ha with
  | stays h => exact ⟨.inl h, fun hd => (nomatch (congrArg isReceiving hd).symm.trans h),
      fun _ hd => (nomatch (congrArg isReceiving hd).symm.trans h)⟩
  | ends h hf hc => exact ⟨.inr (.inl h), fun _ => ⟨hf, hc⟩, fun hframe => (nomatch hf.symm.trans hframe)⟩
  | fails h hf => exact ⟨.inr (.inr h), fun hd => (nomatch h.symm.trans hd), fun hframe _ => hf hframe⟩

/-- Settles O25: decode's status decides first, then the error class of the flags. -/
theorem badFrameThrownAway : Obligations.BadFrameThrownAway := by
  intro s f p ds hf hd
  rw [exec_decodeFrame, runFrame_rxFrame f hf]
  refine ⟨processFrame_decodeFail hd, fun magic capacity hds hm hc => ?_⟩
  subst hds
  rw [processFrame_decoded hd, flowMagic_of_some hm, flowCapacity_of_some hc, emitFlags_eq]
  refine ⟨fun herr => ?_, fun hok => ?_⟩
  · rw [if_pos herr, if_neg (ne_zero_of_hasError herr)]
  · exact if_neg (Bool.eq_false_iff.1 hok)

/-- Settles O33: the step gathers the byte in the state that the read leaves. -/
theorem framingGathersByte : Obligations.FramingGathersByte := by
  intro s rest b count hf hin hb hn
  obtain ⟨buf, hbuf, hgather⟩ := gatherByte_eq b count (afterRx 1 .rx (.data [b]) rest s)
  refine ⟨buf, hbuf, ?_⟩
  rw [step_rxFrame hf hin, fetchRxFrame_byte hin hb, flowCount_of_some hn, hgather, runFetched_finished]

/-- Settles O35: the two answers end the step; only the timeout's looks at the parameter. -/
theorem framingTimeoutAndError : Obligations.FramingTimeoutAndError := by
  intro s rest hf
  refine ⟨fun hin => ?_, fun count hin hn => ?_⟩
  · rw [step_rxFrame hf hin, fetchRxFrame_error hin, runFetched_finished]
  · rw [step_rxFrame hf hin, fetchRxFrame_timeout hin, flowCount_of_some hn, idleTimeout_eq, runFetched_finished, ← hn]
    rfl

end Sys2Proof.Proofs
end

section
/-! PROOF. The statements of 44_host_commands.md: what a host access is refused for (R142), and what each of the five commands does
once the gate on STATE is open and its operands hold a value (R144 to R148). -/

namespace Sys2Proof.Machine

/-! ### The values a register admits (44_host_commands.md R142, logs 5 and 6) -/

/-- Whether a host write of the value finds it legal for the register, whatever STATE is; a read-only register admits none. -/
def registerAdmits (ackMax : Nat) (r : Reg) (v : HostValue) : Bool :=
  match r with
  | .cmd => (valueAsByte v).isSome
  | .pktAction => (valueAsByte v).isSome
  | .cfgCapacity => (valueAsBits 17 v).any capacityLegal
  | .pktOffset => (valueAsBits 16 v).isSome
  | .pktBlock => (valueAsBits 16 v).isSome
  | .cfgMagic => (valueAsBytes 4 v).isSome
  | .pktMagic => (valueAsBytes 4 v).isSome
  | .pktData => (valueAsBytes 16 v).isSome
  | .frame => (valueAsBytes 42 v).isSome
  | .cfgAck => (valueAsAck ackMax v).isSome
  | _ => false

section HostAccesses
variable {s : State} {n : BitVec 8} {r : Reg} {v : HostValue}

theorem withLegal_refused {α : Type} {o : Option α} (k : α → Out) (h : o.isSome = false) :
    withLegal o k = .refused .illegalValue := by
  rw [Option.isSome_eq_false_iff, Option.isNone_iff_eq_none] at h
  rw [h, withLegal_none]

/-- A configuration register's value is looked at behind the gate, which has a ground of its own. -/
theorem configGate_refused {k : Out} {x : Refusal} (h : k = .refused x) : ∃ y, configGate s k = .refused y := by
  cases hb : isBusy s.flow with
  | true => exact ⟨_, configGate_busy hb k⟩
  | false => exact ⟨x, (configGate_open hb k).trans h⟩

/-- A value that the register does not admit is refused in every STATE. -/
theorem writeRegister_refused (h : registerAdmits s.params.ackMax r v = false) : ∃ x, writeRegister r v s = .refused x := by
  cases r
  case status | cfgAckLen | decStatus | valFlags | sendIndex | cursor => exact ⟨_, rfl⟩
  case cfgCapacity =>
    apply configGate_refused (x := .illegalValue)
    cases hv : valueAsBits 17 v with
    | none => rfl
    | some c =>
      rw [registerAdmits, hv, Option.any_some] at h
      rw [withLegal_some, if_neg (Bool.eq_false_iff.1 h)]
  case cfgMagic | cfgAck => exact configGate_refused (withLegal_refused _ h)
  all_goals exact ⟨_, withLegal_refused _ h⟩

theorem exec_wr_refused (hr : regOf n = some r) (h : registerAdmits s.params.ackMax r v = false) :
    ∃ x, exec (.wr (.reg n) v) s = .refused x := by
  rw [exec_wr hr]
  exact writeRegister_refused h

/-- An illegal capacity is refused for its width or for its rule (10_state.md R27). -/
theorem registerAdmits_cfgCapacity_num {m k : Nat} (h : ¬(k % 16 = 0 ∧ 16 ≤ k ∧ k ≤ 0x10000)) :
    registerAdmits m .cfgCapacity (.num k) = false := by
  rw [registerAdmits]
  by_cases hlt : k < 2 ^ 17
  · rw [valueAsBits_of_lt hlt, Option.any_some, Bool.eq_false_iff]
    exact mt (capacityLegal_ofNat hlt).1 h
  · rw [valueAsBits_of_le (Nat.not_lt.1 hlt), Option.any_none]

/-- An acknowledgement of no bytes, of more than ACK_MAX, or of more than CFG_ACK_LEN counts is refused (10_state.md R29; log 6). -/
theorem registerAdmits_cfgAck_bytes {m : Nat} {bs : List Byte} (h : bs.length = 0 ∨ m < bs.length ∨ 0x10000 ≤ bs.length) :
    registerAdmits m .cfgAck (.bytes bs) = false := by
  have hno : valueAsAck m (.bytes bs) = none := if_neg (by omega)
  exact congrArg Option.isSome hno

theorem regOf_reserved (h : n = 0x06#8 ∨ n = 0x07#8 ∨ 0x12 ≤ n.toNat) : regOf n = none := by revert n; decide

theorem exec_wr_reserved (hr : regOf n = none) (v : HostValue) : exec (.wr (.reg n) v) s = .refused .reservedRegister := by
  simp only [exec, execWr, hr]

theorem exec_rd_reserved (hr : regOf n = none) : exec (.rd (.reg n)) s = .refused .reservedRegister := by
  simp only [exec, execRd, hr]

theorem exec_rd_noValue (hr : regOf n = some r) (hcmd : r ≠ .cmd) (hv : readRegister r s = none) :
    exec (.rd (.reg n)) s = .refused .noValue := by
  simp only [exec, execRd, hr, if_neg hcmd, hv, withOperand_none]

theorem exec_rd_image_absent {a : Nat} (hr : isReceiving s.flow = false) (hb : imageByte a s.image = none) :
    exec (.rd (.image a)) s = .refused .imageByteAbsent := by
  simp only [exec, execRd, if_neg (Bool.eq_false_iff.1 hr), hb]

end HostAccesses

/-! ### The commands with their operands held (44_host_commands.md R144 to R148) -/

section HeldOperands
variable {s : State} {capacity : BitVec 17} {magic : Bytes 4}

theorem withConfig_of_held (k : BitVec 17 → Out) (hc : s.cfgCapacity = some capacity) (hm : s.cfgMagic.isSome)
    (ha : s.cfgAck.isSome) : withConfig s k = k capacity := by
  obtain ⟨m, hm⟩ := Option.isSome_iff_exists.1 hm
  obtain ⟨a, ha⟩ := Option.isSome_iff_exists.1 ha
  simp only [withConfig, hc, hm, ha, withOperand_some]

variable (hb : isBusy s.flow = false) (hf : s.flow ≠ .fatal)
include hb hf

theorem execCmdEncode_of_held {bi : BitVec 16} {d : Bytes 16} (hbi : s.pktBlock = some bi) (hd : s.pktData = some d)
    (hm : s.cfgMagic = some magic) :
    execCmdEncode s = if encodable bi then .next { s with frame := some (encodeFrame magic bi d) }
      else .next (raiseFatal .encodeRange s) := by
  rw [execCmdEncode, commandGate_open _ hb hf, hbi, withOperand_some, hd, withOperand_some, hm, withOperand_some]

theorem execCmdDecode_of_held {f : Bytes 42} (hx : s.frame = some f) :
    execCmdDecode s = .next { s with
      pktMagic := some (decodePacket f).1.magic, pktOffset := some (decodePacket f).1.offset,
      pktAction := some (decodePacket f).1.action, pktData := some (decodePacket f).1.data,
      decStatus := some ((decodePacket f).2.setWidth 8) } := by
  rw [execCmdDecode, commandGate_open _ hb hf, hx, withOperand_some]

theorem execCmdValidate_of_held {pm : Bytes 4} {offset : BitVec 16} {action : Byte} (hpm : s.pktMagic = some pm)
    (ho : s.pktOffset = some offset) (ha : s.pktAction = some action) (hm : s.cfgMagic = some magic)
    (hc : s.cfgCapacity = some capacity) :
    execCmdValidate s = .next { s with valFlags := some ((validate pm offset action magic capacity).setWidth 8) } := by
  rw [execCmdValidate, commandGate_open _ hb hf, hpm, withOperand_some, ho, withOperand_some, ha, withOperand_some, hm,
    withOperand_some, hc, withOperand_some]

theorem execCmdStartSend_of_held (hc : s.cfgCapacity = some capacity) (hm : s.cfgMagic.isSome) (ha : s.cfgAck.isSome) :
    execCmdStartSend s = .next { s with sendIndex := some 0#16, flow := .txFetch } := by
  rw [execCmdStartSend, commandGate_open _ hb hf, withConfig_of_held _ hc hm ha]

theorem execCmdStartRecv_of_held (hc : s.cfgCapacity = some capacity) (hm : s.cfgMagic.isSome) (ha : s.cfgAck.isSome) :
    execCmdStartRecv s =
      .next { s with image := zeroImage capacity, cursor := some 0#16, rxCount := some 0#6, flow := .rxFrame } := by
  rw [execCmdStartRecv, commandGate_open _ hb hf, withConfig_of_held _ hc hm ha]

end HeldOperands

/-- A register write is not CMD_START_RECV, so it makes no image (20_memory.md R52, 92_eei_decisions.md D24). -/
theorem exec_wr_image {s u : State} {n : BitVec 8} {r : Reg} {v : HostValue} (hr : regOf n = some r) (hcmd : r ≠ .cmd)
    (h : exec (.wr (.reg n) v) s = .next u) : u.image = s.image := by
  rw [exec_wr hr] at h
  have heffect : HostEffect (.wr (.reg n) v) s u := writeRegister_effect hcmd h
  exact heffect.image_cases.resolve_right fun hrecv => nomatch hrecv.1

end Sys2Proof.Machine

namespace Sys2Proof.Proofs
open Sys2Proof.Machine

/-- Settles O19: a write is refused for its register or for a value that the register does not admit, a read for its register or for
the want of a value, and IMAGE for STATE, the extent or a write. -/
theorem hostAccessesRefused : Obligations.HostAccessesRefused := by
  intro s
  simp only [List.forall_mem_cons, List.not_mem_nil, false_imp_iff, implies_true, and_true]
  refine ⟨?reserved, rfl, ?readOnly, ?byteNum, ?byteBytes, ?numericBytes, ?bytesNum, ?bitsNum, ?capacity, ?fourBytes, ?data,
    ?frame, ?ack, ?busy, ?noValue, ?receiving, ?absent, fun _ _ => rfl⟩
  case reserved => exact fun n hn => ⟨exec_wr_reserved (regOf_reserved hn), exec_rd_reserved (regOf_reserved hn)⟩
  case readOnly => exact ⟨fun _ => rfl, fun _ => rfl, fun _ => rfl, fun _ => rfl, fun _ => rfl, fun _ => rfl⟩
  case byteNum =>
    exact ⟨fun k hk => exec_wr_refused (r := .cmd) rfl (congrArg Option.isSome (valueAsByte_of_le hk)),
      fun k hk => exec_wr_refused (r := .pktAction) rfl (congrArg Option.isSome (valueAsByte_of_le hk))⟩
  case byteBytes =>
    exact ⟨fun bs hbs => exec_wr_refused (r := .cmd) rfl (congrArg Option.isSome (valueAsByte_of_ne hbs)),
      fun bs hbs => exec_wr_refused (r := .pktAction) rfl (congrArg Option.isSome (valueAsByte_of_ne hbs))⟩
  case numericBytes => exact ⟨fun _ => exec_wr_refused rfl rfl, fun _ => exec_wr_refused rfl rfl, fun _ => exec_wr_refused rfl rfl⟩
  case bytesNum =>
    exact ⟨fun _ => exec_wr_refused rfl rfl, fun _ => exec_wr_refused rfl rfl, fun _ => exec_wr_refused rfl rfl,
      fun _ => exec_wr_refused rfl rfl, fun _ => exec_wr_refused rfl rfl⟩
  case bitsNum =>
    exact ⟨fun k hk => exec_wr_refused (r := .pktOffset) rfl (congrArg Option.isSome (valueAsBits_of_le hk)),
      fun k hk => exec_wr_refused (r := .pktBlock) rfl (congrArg Option.isSome (valueAsBits_of_le hk))⟩
  case capacity => exact fun k hk => exec_wr_refused rfl (registerAdmits_cfgCapacity_num hk)
  case fourBytes =>
    exact ⟨fun bs hbs => exec_wr_refused (r := .cfgMagic) rfl (congrArg Option.isSome (valueAsBytes_of_ne hbs)),
      fun bs hbs => exec_wr_refused (r := .pktMagic) rfl (congrArg Option.isSome (valueAsBytes_of_ne hbs))⟩
  case data => exact fun bs hbs => exec_wr_refused (r := .pktData) rfl (congrArg Option.isSome (valueAsBytes_of_ne hbs))
  case frame => exact fun bs hbs => exec_wr_refused (r := .frame) rfl (congrArg Option.isSome (valueAsBytes_of_ne hbs))
  case ack => exact fun bs hbs => exec_wr_refused rfl (registerAdmits_cfgAck_bytes hbs)
  case busy => exact fun hb => ⟨fun _ => configGate_busy hb _, fun _ => configGate_busy hb _, fun _ => configGate_busy hb _⟩
  case noValue => exact fun n r hr hcmd hv => exec_rd_noValue hr hcmd hv
  case receiving => exact fun hr a => exec_rd_image_receiving a hr
  case absent => exact fun hr a hb => exec_rd_image_absent hr hb

/-- Settles O11: the operands are asked for, then the contract decides. -/
theorem cmdEncodeResult : Obligations.CmdEncodeResult := by
  refine fun s hb hf => ⟨fun bi d magic hbi hd hm => ⟨fun hle => ?_, fun hgt => ?_⟩, execCmdEncode_noValue hb hf⟩
  · exact (execCmdEncode_of_held hb hf hbi hd hm).trans (if_pos (decide_eq_true hle))
  · exact (execCmdEncode_of_held hb hf hbi hd hm).trans (if_neg (by simpa [encodable] using hgt))

/-- Settles O12: the decode of FRAME is stored whatever its status. -/
theorem cmdDecodeResult : Obligations.CmdDecodeResult :=
  fun _ hb hf => ⟨fun _ hx => execCmdDecode_of_held hb hf hx, execCmdDecode_noValue hb hf⟩

/-- Settles O13: the flags are computed from the five operands, so the packet's data are free. -/
theorem cmdValidateResult : Obligations.CmdValidateResult :=
  fun _ hb hf => ⟨fun _ _ _ _ _ _ hpm ho ha hm hc => execCmdValidate_of_held hb hf hpm ho ha hm hc,
    execCmdValidate_noValue hb hf⟩

/-- Settles O14: the command needs the configuration to be there and looks at none of its values. -/
theorem cmdStartSendResult : Obligations.CmdStartSendResult := by
  refine fun s hb hf => ⟨fun hc hm ha => ?_, execCmdStartSend_noValue hb hf⟩
  obtain ⟨capacity, hc⟩ := Option.isSome_iff_exists.1 hc
  exact execCmdStartSend_of_held hb hf hc hm ha

/-- Settles O15: the image is `zeroImage` of the capacity that the command reads, and a write of CFG_CAPACITY touches no image. -/
theorem cmdStartRecvResult : Obligations.CmdStartRecvResult := by
  refine ⟨fun s u v h => exec_wr_image (r := .cfgCapacity) rfl nofun h, fun s hb hf => ⟨fun capacity hc hm ha => ?_,
    execCmdStartRecv_noValue hb hf⟩⟩
  exact ⟨zeroImage capacity, zeroImage_extent capacity, zeroImage_wf capacity, imageByte_zeroImage capacity,
    execCmdStartRecv_of_held hb hf hc hm ha⟩

end Sys2Proof.Proofs
end

section
/-! PROOF. The statements of 60_exceptions.md: a step from FATAL keeps its record or is a reset, and no answer is asked for there
(R160, R163, R176). -/

namespace Sys2Proof.Machine

section Fatal
variable {s t : State}

/-- FATAL is entered from another STATE only, so out of FATAL a step that is no reset keeps the record. -/
theorem Effect.fatalKept_of_fatal (h : Effect s t) (hf : s.flow = .fatal) (hr : ∀ rest, s.inbox ≠ .reset :: rest) :
    FatalKept s t := by
  rcases h.fatal_fields with ⟨rest, hi, -⟩ | hkept | ⟨-, -, hcause⟩
  · exact absurd hi (hr rest)
  · exact hkept
  · obtain ⟨hne, -⟩ := raisedIn_names_cause hcause
    exact absurd hf hne

/-- FATAL has no step that an answer of the environment could complete (60_exceptions.md R163). -/
theorem step_answer_in_fatal (hf : s.flow = .fatal) (ha : answersNext s = true) :
    step s = .refused .answerOutsideSignature := by
  have hfetch : fetchFlow s = .finished (.refused .answerOutsideSignature) := by simp only [fetchFlow, hf]
  rw [step_of_answersNext ha, hfetch, runFetched_finished]

end Fatal

end Sys2Proof.Machine

namespace Sys2Proof.Proofs
open Sys2Proof.Machine

/-- Settles O43: a step keeps the record of FATAL, the flow there asks for no answer, the gate stops every command, and a reset is
taken at once. -/
theorem onlyResetLeavesFatal : Obligations.OnlyResetLeavesFatal := by
  intro s hf
  refine ⟨fun t h hr => ?_, fun ha t h => ?_, fun c => ?_, fun rest hi => ⟨_, step_reset hi, rfl⟩⟩
  · obtain ⟨hflow, hstate, hcause⟩ := (step_effect h).fatalKept_of_fatal hf hr
    exact ⟨hflow.2 hf, hstate, hcause⟩
  · rw [step_answer_in_fatal hf ha] at h
    cases h
  · obtain ⟨-, hfatal, -⟩ := commandsRefused
    exact hfatal c s hf

end Sys2Proof.Proofs
end
